-- ==== Sys2Proof/Word.lean ====
section
/-! DEFINITION. The machine word and the widths of the instruction's fields: 00_scope.md R6, R8; 30_encoding.md R61.
Every value is an unsigned bit vector; no instruction reads one as signed (R8). -/

namespace Sys2Proof

/-- A register, a memory cell or an instruction word: `XLEN` = `ILEN` = 16 bits (00_scope.md R6). -/
abbrev Word := BitVec 16

/-- A 3-bit register index, 0..7: the `operand1` and `operand3` fields (30_encoding.md R61; 10_state.md R21). -/
abbrev RegIdx := BitVec 3

/-- The 4-bit `operand2` field: a register index to be range-checked, an immediate 0..15, or a memory word address
0..15 (30_encoding.md R61, R64). -/
abbrev Nibble := BitVec 4

end Sys2Proof
end

