-- ==== Sys2Proof/Config.lean ====
section
/-! DEFINITION. The parameters of the hardware that its encoding does not fix: 00_scope.md R6 (spec decision D3).
They are fixed for a run; no instruction reads or writes them and no step changes them. -/

namespace Sys2Proof

/-- The two open parameters (00_scope.md R6): the memory capacity `MEM_WORDS` in words, and `SENTINEL`, the empty-cell
and halt marker. `CYCLES_PER_INSTR` is read by no rule (70_reset_and_hazards.md R160) and is not modelled (log 13). -/
structure Config where
  memWords : Nat
  sentinel : Word
deriving DecidableEq, Repr

/-- The document's values: 512 words, sentinel 0xFFFF (00_scope.md R6).
UNVERIFIED (log 2, unsafe): the spec calls these literals unaudited. -/
def Config.document : Config := { memWords := 512, sentinel := 0xFFFF#16 }

/-- The constraint a model may assume: `1 <= MEM_WORDS <= 65536` (00_scope.md R6). -/
def Config.legal (c : Config) : Bool := decide (1 ≤ c.memWords) && decide (c.memWords ≤ 65536)

end Sys2Proof
end

