-- ==== Sys2Proof/Syntax.lean ====
section
/-! DEFINITION. The instructions: one constructor per row of spec/opcode_table.json (30_encoding.md R66).
Operands stand in the order of the word's fields: `operand1`, `operand2`, `operand3` (R72). -/

namespace Sys2Proof

/-- The thirteen rows of the opcode table.

In the ALU rows `d` is `operand1` (destination), `a` or `imm` is `operand2` (the source of `first`), `b` is `operand3`
(the register of `second`): 41_alu.md R91. A register form keeps the whole 4-bit `operand2`, which the alu
range-checks (R106). LOAD and STORE keep the two fields they ignore, `iBit` and `op3` (30_encoding.md R64), so that an
instruction stands for exactly one word. -/
inductive Instr where
  /-- HALT: the sentinel word. Not an instruction but a row of the table (R69; 42_execution_engine.md R116). -/
  | halt
  /-- LOAD rD, [addr] (40_data_transfer.md R83). -/
  | load (iBit : BitVec 1) (d : RegIdx) (addr : Nibble) (op3 : BitVec 3)
  /-- STORE rS, [addr] (40_data_transfer.md R84). -/
  | store (iBit : BitVec 1) (s : RegIdx) (addr : Nibble) (op3 : BitVec 3)
  /-- ADD rD, rA, rB (41_alu.md R93). -/
  | add (d : RegIdx) (a : Nibble) (b : RegIdx)
  /-- ADDI rD, imm, rB (41_alu.md R94). -/
  | addi (d : RegIdx) (imm : Nibble) (b : RegIdx)
  /-- SUB rD, rA, rB (41_alu.md R95). -/
  | sub (d : RegIdx) (a : Nibble) (b : RegIdx)
  /-- SUBI rD, imm, rB (41_alu.md R96): the immediate is the minuend. -/
  | subi (d : RegIdx) (imm : Nibble) (b : RegIdx)
  /-- AND rD, rA, rB (41_alu.md R97). -/
  | and (d : RegIdx) (a : Nibble) (b : RegIdx)
  /-- ANDI rD, imm, rB (41_alu.md R98). -/
  | andi (d : RegIdx) (imm : Nibble) (b : RegIdx)
  /-- OR rD, rA, rB (41_alu.md R99). -/
  | or (d : RegIdx) (a : Nibble) (b : RegIdx)
  /-- ORI rD, imm, rB (41_alu.md R100). -/
  | ori (d : RegIdx) (imm : Nibble) (b : RegIdx)
  /-- XOR rD, rA, rB (41_alu.md R101). -/
  | xor (d : RegIdx) (a : Nibble) (b : RegIdx)
  /-- XORI rD, imm, rB (41_alu.md R102). -/
  | xori (d : RegIdx) (imm : Nibble) (b : RegIdx)
deriving DecidableEq, Repr

end Sys2Proof
end

