-- ==== Sys2Proof/WellFormed.lean ====
section
/-! DEFINITION. Which instructions are words of the table: 30_encoding.md R64, R66. -/

namespace Sys2Proof

/-- The `operand2` field names a register: it is 0..7, so bit 6 of the word is 0 (30_encoding.md R64). -/
def registerInRange (a : Nibble) : Bool := decide (a.toNat < 8)

/-- A well-formed instruction is one whose word matches its row's mask and match (30_encoding.md R66). Every field
value is admitted but for the first register of the five register forms, which must be 0..7; an immediate and a data
address take all sixteen values. -/
def Instr.wf : Instr → Bool
  | .halt => true
  | .load _ _ _ _ => true
  | .store _ _ _ _ => true
  | .add _ a _ => registerInRange a
  | .addi _ _ _ => true
  | .sub _ a _ => registerInRange a
  | .subi _ _ _ => true
  | .and _ a _ => registerInRange a
  | .andi _ _ _ => true
  | .or _ a _ => registerInRange a
  | .ori _ _ _ => true
  | .xor _ a _ => registerInRange a
  | .xori _ _ _ => true

end Sys2Proof
end

