-- ==== Sys2Proof/Decode.lean ====
section
/-! DEFINITION. The instruction_decoder and its inverse: 30_encoding.md R60 to R71.
`fields` is the total field extraction of R61 and R62; `decode` names the row of R66 a word belongs to, or the class of
R68 it is illegal in; `encode` builds the word of an instruction by R63. -/

namespace Sys2Proof

/-- The six fields of an instruction word (30_encoding.md R61). -/
structure Fields where
  t : BitVec 1
  opcode : BitVec 4
  i : BitVec 1
  operand1 : BitVec 3
  operand2 : BitVec 4
  operand3 : BitVec 3
deriving DecidableEq, Repr

/-- The decoder proper: each field is a fixed slice of the word, with no failure mode (30_encoding.md R61, R62, R74). -/
def fields (w : Word) : Fields where
  t := w.extractLsb' 15 1
  opcode := w.extractLsb' 11 4
  i := w.extractLsb' 10 1
  operand1 := w.extractLsb' 7 3
  operand2 := w.extractLsb' 3 4
  operand3 := w.extractLsb' 0 3

/-- The inverse of `fields`, by the formula of 30_encoding.md R63. -/
def Fields.toWord (f : Fields) : Word :=
  BitVec.ofNat 16 (f.t.toNat * 32768 + f.opcode.toNat * 2048 + f.i.toNat * 1024
    + f.operand1.toNat * 128 + f.operand2.toNat * 8 + f.operand3.toNat)

/-- A STORE word: `T = 1`, opcode 0b0110 (30_encoding.md R66). -/
abbrev IsStoreWord (w : Word) : Prop := (fields w).t = 1 ∧ (fields w).opcode = 0b0110

/-- A LOAD word: `T = 1`, opcode 0b0101 (30_encoding.md R66). -/
abbrev IsLoadWord (w : Word) : Prop := (fields w).t = 1 ∧ (fields w).opcode = 0b0101

/-- A word of one of the ten ALU rows: `T = 0`, opcode 0..4, and an `operand2` that is an immediate or names a register
(30_encoding.md R66). -/
abbrev IsAluWord (w : Word) : Prop :=
  (fields w).t = 0 ∧ (fields w).opcode.toNat ≤ 4 ∧ ((fields w).i = 1 ∨ (fields w).operand2.toNat < 8)

/-- Why a word that is not the sentinel matches no row: the three classes of 30_encoding.md R68. -/
inductive Illegal where
  /-- `T = 0`, `I = 0`, `operand2 >= 8`, any opcode (R68, first class; 41_alu.md R106). -/
  | registerIndex
  /-- `T = 0`, opcode 0b0101..0b1111, not in the first class (R68, second class; 41_alu.md R105). -/
  | aluOpcode
  /-- `T = 1`, opcode neither LOAD nor STORE (R68, third class; 40_data_transfer.md R85). The address field is kept:
  the load_store_unit checks it before the opcode (40_data_transfer.md R80). -/
  | dataTransferOpcode (addr : Nibble)
deriving DecidableEq, Repr

/-- What decoding answers: an instruction, or the name of the class the word is illegal in. -/
inductive Decoded where
  | instr (i : Instr)
  | illegal (r : Illegal)
deriving DecidableEq, Repr

/-- A word with `T = 1` (30_encoding.md R67; opcode values 0b0101 LOAD, 0b0110 STORE of R66). -/
def decodeDataTransfer (f : Fields) : Decoded :=
  match f.opcode with
  | 0b0101#4 => .instr (.load f.i f.operand1 f.operand2 f.operand3)
  | 0b0110#4 => .instr (.store f.i f.operand1 f.operand2 f.operand3)
  | _ => .illegal (.dataTransferOpcode f.operand2)

/-- A word with `T = 0`, `I = 0`. The register-index check comes before the opcode check (30_encoding.md R68;
60_exceptions.md R133, spec decision D7: log 7, unsafe). -/
def decodeAluRegister (f : Fields) : Decoded :=
  if registerInRange f.operand2 then
    match f.opcode with
    | 0b0000#4 => .instr (.add f.operand1 f.operand2 f.operand3)
    | 0b0001#4 => .instr (.sub f.operand1 f.operand2 f.operand3)
    | 0b0010#4 => .instr (.and f.operand1 f.operand2 f.operand3)
    | 0b0011#4 => .instr (.or f.operand1 f.operand2 f.operand3)
    | 0b0100#4 => .instr (.xor f.operand1 f.operand2 f.operand3)
    | _ => .illegal .aluOpcode
  else .illegal .registerIndex

/-- A word with `T = 0`, `I = 1`: every `operand2` is a legal immediate (41_alu.md R91). -/
def decodeAluImmediate (f : Fields) : Decoded :=
  match f.opcode with
  | 0b0000#4 => .instr (.addi f.operand1 f.operand2 f.operand3)
  | 0b0001#4 => .instr (.subi f.operand1 f.operand2 f.operand3)
  | 0b0010#4 => .instr (.andi f.operand1 f.operand2 f.operand3)
  | 0b0011#4 => .instr (.ori f.operand1 f.operand2 f.operand3)
  | 0b0100#4 => .instr (.xori f.operand1 f.operand2 f.operand3)
  | _ => .illegal .aluOpcode

/-- The row or class of a field tuple: `T` alone chooses the unit (30_encoding.md R67, R71). -/
def decodeFields (f : Fields) : Decoded :=
  if f.t = 1#1 then decodeDataTransfer f
  else if f.i = 1#1 then decodeAluImmediate f
  else decodeAluRegister f

/-- The row or class of a word. The HALT row is tested before all others (opcode_table.json, spec decision D14; R69);
it follows the parameter `SENTINEL` (log 14). -/
def decode (c : Config) (w : Word) : Decoded :=
  if w = c.sentinel then .instr .halt else decodeFields (fields w)

/-- The fields of an instruction other than HALT (30_encoding.md R64, R66); HALT's are those R69 gives for 0xFFFF. -/
def Instr.fields : Instr → Fields
  | .halt => ⟨1, 0b1111, 1, 7, 15, 7⟩
  | .load iBit d addr op3 => ⟨1, 0b0101, iBit, d, addr, op3⟩
  | .store iBit s addr op3 => ⟨1, 0b0110, iBit, s, addr, op3⟩
  | .add d a b => ⟨0, 0b0000, 0, d, a, b⟩
  | .addi d imm b => ⟨0, 0b0000, 1, d, imm, b⟩
  | .sub d a b => ⟨0, 0b0001, 0, d, a, b⟩
  | .subi d imm b => ⟨0, 0b0001, 1, d, imm, b⟩
  | .and d a b => ⟨0, 0b0010, 0, d, a, b⟩
  | .andi d imm b => ⟨0, 0b0010, 1, d, imm, b⟩
  | .or d a b => ⟨0, 0b0011, 0, d, a, b⟩
  | .ori d imm b => ⟨0, 0b0011, 1, d, imm, b⟩
  | .xor d a b => ⟨0, 0b0100, 0, d, a, b⟩
  | .xori d imm b => ⟨0, 0b0100, 1, d, imm, b⟩

/-- The word of an instruction (30_encoding.md R63); HALT's word is the sentinel (R69). -/
def encode (c : Config) (i : Instr) : Word :=
  if i = .halt then c.sentinel else i.fields.toWord

/-- What the decoder reads from an instruction numbered as spec/opcode_table.json numbers it, at the document's
parameters: one word of 16 bits, bit 0 its least significant bit (30_encoding.md R60, R61). Every row has 16 bits;
a shorter one is taken with the bits above it zero, a longer one is no instruction. -/
def decodeTableWord (nbits w : Nat) : Option Instr :=
  if nbits ≤ 16 then
    match decode Config.document (BitVec.ofNat 16 (w % 2 ^ nbits)) with
    | .instr i => some i
    | .illegal _ => none
  else none

end Sys2Proof
end

