-- ==== Sys2Proof/Machine/State.lean ====
section
/-! DEFINITION. The state of the machine and the reasons a step can stop: 10_state.md R20 to R34. -/

namespace Sys2Proof.Machine

/-- `run_state` of the execution_controller (10_state.md R27). -/
inductive RunState where
  | running
  /-- Terminal, normal. -/
  | halted
  /-- Terminal, abnormal. -/
  | faulted
deriving DecidableEq, Repr

/-- `fault_kind` of the execution_controller: `NONE` or one of the four faults the core can signal
(10_state.md R28; 60_exceptions.md R130). These are architectural values, not the outcome of a Lean step. -/
inductive FaultKind where
  | none
  | outOfBoundsAddress
  | invalidDataTransferOpcode
  | registerIndexOutOfBounds
  | invalidALUOpcode
deriving DecidableEq, Repr

/-- Memory: the cells that differ from what an unlisted address reads as, as (word address, 16-bit word) pairs in one
canonical form (`Memory.wf`). Cells are 16-bit words: 20_memory.md R40 asks for words and not bytes (log 1). -/
abbrev Memory := List (Nat × Word)

/-- The whole state, the tuple of 10_state.md R20, and beside it the parameters of the run, which the spec does not
count as state and no step changes (log 2). Between a step's fetch and its execution `pc` is already incremented
(42_execution_engine.md R115). -/
structure State where
  /-- `x[0]` to `x[7]`: eight 16-bit registers, none hard-wired (R21). -/
  x : Vector Word 8
  /-- The program counter, a word address in 0..MEM_WORDS (R24; log 5). -/
  pc : Nat
  /-- The memory array (R31). -/
  mem : Memory
  /-- R27. -/
  runState : RunState
  /-- R28. -/
  faultKind : FaultKind
  /-- R28: the address the faulting instruction was fetched from. -/
  faultIndex : Nat
  /-- The parameters of the run (00_scope.md R6). -/
  cfg : Config
deriving DecidableEq, Repr

/-- Why no step is taken. The machine's own faults are NOT here: they are next states (60_exceptions.md R138). -/
inductive Fault where
  /-- Raised by `step` alone, in a state with `run_state = HALTED`: no step is defined there
  (42_execution_engine.md R119). Safe (log 10). -/
  | alreadyHalted
  /-- Raised by `step` alone, in a state with `run_state = FAULTED`: no step is defined there
  (42_execution_engine.md R119). Safe (log 10). -/
  | alreadyFaulted
deriving DecidableEq, Repr

/-- Why an instruction has no meaning. -/
inductive Refusal where
  /-- Raised by `exec` for an instruction whose meaning is not written. No arm of `exec` raises it. Safe. -/
  | notModelled (mnemonic : String)
deriving DecidableEq, Repr

/-- The machine right after reset with nothing loaded (10_state.md R34; 70_reset_and_hazards.md R150): registers 0,
`pc` 0, RUNNING, no fault record (`fault_kind` and `fault_index` by spec decision D12, log 4), every memory cell the
sentinel prefill (nothing listed: log 3), the document's parameters (log 2). -/
def State.reset : State where
  x := Vector.replicate 8 0#16
  pc := 0
  mem := []
  runState := .running
  faultKind := .none
  faultIndex := 0
  cfg := Config.document

end Sys2Proof.Machine
end

