-- ==== Sys2Proof/Machine/Ops.lean ====
section
/-! DEFINITION. The named operations over memory, registers, the program counter and the execution_controller. Every
meaning and every step is written over these. -/

namespace Sys2Proof.Machine

/-! ### The memory array (10_state.md R31, 20_memory.md R40 to R48) -/

/-- The cell at `a`; an unlisted cell reads as `fill` (the sentinel prefill: 10_state.md R34; log 3). -/
def Memory.read (fill : Word) : Memory → Nat → Word
  | [], _ => fill
  | (k, u) :: m, a => if k = a then u else Memory.read fill m a

/-- One entry in front, unless it is what an unlisted cell reads as. -/
def Memory.entry (fill : Word) (a : Nat) (v : Word) (m : Memory) : Memory :=
  if v = fill then m else (a, v) :: m

/-- The memory with the cell at `a` holding `v`, still in canonical form (`Memory.wf`). -/
def Memory.write (fill : Word) : Memory → Nat → Word → Memory
  | [], a, v => Memory.entry fill a v []
  | (k, u) :: m, a, v =>
    if a < k then Memory.entry fill a v ((k, u) :: m)
    else if a = k then Memory.entry fill a v m
    else (k, u) :: Memory.write fill m a v

/-- The canonical form: addresses strictly rising, every one below the capacity, and no entry equal to what an
unlisted cell reads as; so equal memories are equal lists. -/
abbrev Memory.wf (fill : Word) (cap : Nat) (m : Memory) : Prop :=
  m.Pairwise (fun p q => p.1 < q.1) ∧ ∀ e ∈ m, e.1 < cap ∧ e.2 ≠ fill

/-- The initial image `init_mem`, any function from addresses to words, as a memory of `cap` cells
(70_reset_and_hazards.md R152, spec decision D13). -/
def Memory.ofImage (fill : Word) (cap : Nat) (init : Nat → Word) : Memory :=
  (List.range cap).foldr (fun a m => Memory.entry fill a (init a) m) []

/-- A bounds-checked read of the memory array: `none` at or above `MEM_WORDS` (20_memory.md R47). -/
def State.readCell (s : State) (a : Nat) : Option Word :=
  if a < s.cfg.memWords then some (Memory.read s.cfg.sentinel s.mem a) else none

/-- A bounds-checked write of the memory array: `none` at or above `MEM_WORDS` (20_memory.md R47). -/
def State.writeCell (s : State) (a : Nat) (v : Word) : Option State :=
  if a < s.cfg.memWords then some { s with mem := Memory.write s.cfg.sentinel s.mem a v } else none

/-! ### The register_file (10_state.md R23) -/

/-- `read(i)`: `x[i]`, with no side effect. -/
def State.reg (s : State) (r : RegIdx) : Word := s.x[r.toNat]'r.isLt

/-- `write(i, v)`: `x[i] <- v`, the other seven cells unchanged. -/
def State.setReg (s : State) (r : RegIdx) (v : Word) : State := { s with x := s.x.set r.toNat v r.isLt }

/-! ### The program_counter (10_state.md R25, R26) -/

/-- `increment`: `pc <- pc + 1`, the only change of `pc` while running. -/
def State.incrementPc (s : State) : State := { s with pc := s.pc + 1 }

/-- The index of the instruction being executed: `pc - 1` after the fetch step's increment (10_state.md R28; log 15). -/
def State.instrIndex (s : State) : Nat := s.pc - 1

/-! ### The execution_controller (42_execution_engine.md R112) -/

/-- RUNNING -> HALTED: nothing else changes (42_execution_engine.md R116). -/
def State.halt (s : State) : State := { s with runState := .halted }

/-- `raise <kind>(idx)`, taking a fault (60_exceptions.md R138): FAULTED, the kind and the faulting instruction's index
recorded, no register and no memory cell written. `pc` keeps its incremented value `idx + 1` (spec decision D10,
log 6). There is no handler and no return from a fault (R141). -/
def State.takeFault (s : State) (kind : FaultKind) : State :=
  { s with runState := .faulted, faultKind := kind, faultIndex := s.instrIndex }

/-- The fault a word that is no instruction makes its unit signal (30_encoding.md R68). The load_store_unit checks the
address before the opcode (40_data_transfer.md R80; 60_exceptions.md R133, spec decision D8: log 8). -/
def illegalFaultKind (c : Config) : Illegal → FaultKind
  | .registerIndex => .registerIndexOutOfBounds
  | .aluOpcode => .invalidALUOpcode
  | .dataTransferOpcode addr =>
    if c.memWords ≤ addr.toNat then .outOfBoundsAddress else .invalidDataTransferOpcode

/-- Executing a word that is no instruction: its unit's fault is taken, nothing is written (30_encoding.md R68). -/
def State.takeIllegal (s : State) (r : Illegal) : State := s.takeFault (illegalFaultKind s.cfg r)

/-! ### Reset (70_reset_and_hazards.md R150 to R153) -/

/-- Asserting reset: `register_file`, `program_counter` and `execution_controller` take their reset values, memory is
left as it is (70_reset_and_hazards.md R150, R151; spec decisions D12, D18: log 4, log 11). It is the only way out of
HALTED and FAULTED (60_exceptions.md R141). -/
def State.coreReset (s : State) : State :=
  { s with x := Vector.replicate 8 0#16, pc := 0, runState := .running, faultKind := .none, faultIndex := 0 }

/-- The start of a run on parameters `c` and initial image `init`: the host loads the image, then applies reset
(10_state.md R34; 70_reset_and_hazards.md R152, R153). -/
def State.startWith (c : Config) (init : Nat → Word) : State :=
  State.coreReset { State.reset with mem := Memory.ofImage c.sentinel c.memWords init, cfg := c }

end Sys2Proof.Machine
end

