-- ==== Sys2Proof/Machine/Operands.lean ====
section
/-! DEFINITION. The operand forms: 30_encoding.md R65; 40_data_transfer.md R81; 41_alu.md R91. -/

namespace Sys2Proof.Machine

/-- `zext_16` of the 4-bit field (00_scope.md R9; 30_encoding.md R65): never sign-extended, scaled or shifted. -/
def zext16 (n : Nibble) : Word := n.setWidth 16

/-- The immediate of an ALU instruction with `I = 1`, the ALU's `first` input (30_encoding.md R65; 41_alu.md R91). -/
def immediateOperand (imm : Nibble) : Word := zext16 imm

/-- The register named by the `operand2` field, the ALU's `first` input when `I = 0`; `none` when the index is out of
range (41_alu.md R91, R106). -/
def State.firstRegister (s : State) (a : Nibble) : Option Word :=
  if registerInRange a then some (s.reg (a.setWidth 3)) else none

/-- The effective address of a LOAD or STORE, the load_store_unit's 16-bit address input: the absolute word address in
the 4-bit field (40_data_transfer.md R81; the width is spec decision D15, log 16). -/
def effectiveAddress (addr : Nibble) : Word := zext16 addr

end Sys2Proof.Machine
end

