-- ==== Sys2Proof/Machine/Alu.lean ====
section
/-! DEFINITION. The arithmetic-logical instructions: 41_alu.md R90 to R104. `first` comes from the `operand2` field,
`second` is always `x[operand3]` (R91). -/

namespace Sys2Proof.Machine

open Host (Outcome)

/-! ### The five functions (R90 step 3, R103) -/

/-- `(first + second) mod 2^16`. -/
def aluAdd (first second : Word) : Word := first + second

/-- `(first - second) mod 2^16`: `first` is the minuend. -/
def aluSub (first second : Word) : Word := first - second

/-- Bitwise AND. -/
def aluAnd (first second : Word) : Word := first &&& second

/-- Bitwise OR. -/
def aluOr (first second : Word) : Word := first ||| second

/-- Bitwise exclusive OR. -/
def aluXor (first second : Word) : Word := first ^^^ second

/-! ### The two forms (R91, R92) -/

/-- A register form: `first <- x[a]` after its range check (R106), `second <- x[b]`, both read before `x[d]` is
written (R92). -/
def aluRegister (f : Word → Word → Word) (d : RegIdx) (a : Nibble) (b : RegIdx) (s : State) :
    Outcome State Fault Refusal :=
  match s.firstRegister a with
  | none => .next (s.takeFault .registerIndexOutOfBounds)
  | some first => .next (s.setReg d (f first (s.reg b)))

/-- An immediate form: `first <- zext_16(imm)`, with no range check (R91). -/
def aluImmediate (f : Word → Word → Word) (d : RegIdx) (imm : Nibble) (b : RegIdx) (s : State) :
    Outcome State Fault Refusal :=
  .next (s.setReg d (f (immediateOperand imm) (s.reg b)))

/-! ### The ten instructions -/

/-- ADD (R93): `x[D] <- (x[A] + x[B]) mod 2^16`. -/
def execAdd (d : RegIdx) (a : Nibble) (b : RegIdx) (s : State) : Outcome State Fault Refusal :=
  aluRegister aluAdd d a b s

/-- ADDI (R94): `x[D] <- (imm + x[B]) mod 2^16`. -/
def execAddi (d : RegIdx) (imm : Nibble) (b : RegIdx) (s : State) : Outcome State Fault Refusal :=
  aluImmediate aluAdd d imm b s

/-- SUB (R95): `x[D] <- (x[A] - x[B]) mod 2^16`. -/
def execSub (d : RegIdx) (a : Nibble) (b : RegIdx) (s : State) : Outcome State Fault Refusal :=
  aluRegister aluSub d a b s

/-- SUBI (R96): `x[D] <- (imm - x[B]) mod 2^16`. -/
def execSubi (d : RegIdx) (imm : Nibble) (b : RegIdx) (s : State) : Outcome State Fault Refusal :=
  aluImmediate aluSub d imm b s

/-- AND (R97): `x[D] <- x[A] & x[B]`. -/
def execAnd (d : RegIdx) (a : Nibble) (b : RegIdx) (s : State) : Outcome State Fault Refusal :=
  aluRegister aluAnd d a b s

/-- ANDI (R98): `x[D] <- imm & x[B]`. -/
def execAndi (d : RegIdx) (imm : Nibble) (b : RegIdx) (s : State) : Outcome State Fault Refusal :=
  aluImmediate aluAnd d imm b s

/-- OR (R99): `x[D] <- x[A] | x[B]`. -/
def execOr (d : RegIdx) (a : Nibble) (b : RegIdx) (s : State) : Outcome State Fault Refusal :=
  aluRegister aluOr d a b s

/-- ORI (R100): `x[D] <- imm | x[B]`. -/
def execOri (d : RegIdx) (imm : Nibble) (b : RegIdx) (s : State) : Outcome State Fault Refusal :=
  aluImmediate aluOr d imm b s

/-- XOR (R101): `x[D] <- x[A] ^ x[B]`. -/
def execXor (d : RegIdx) (a : Nibble) (b : RegIdx) (s : State) : Outcome State Fault Refusal :=
  aluRegister aluXor d a b s

/-- XORI (R102): `x[D] <- imm ^ x[B]`. -/
def execXori (d : RegIdx) (imm : Nibble) (b : RegIdx) (s : State) : Outcome State Fault Refusal :=
  aluImmediate aluXor d imm b s

end Sys2Proof.Machine
end

