-- ==== Sys2Proof/Machine/DataTransfer.lean ====
section
/-! DEFINITION. LOAD and STORE: 40_data_transfer.md R80 to R84. The `I` and `operand3` fields are ignored
(30_encoding.md R64; log 9). -/

namespace Sys2Proof.Machine

open Host (Outcome)

/-- `x[d] <- Mem[addr]` with the unit's bounds check on its 16-bit address input (R82, R83). -/
def loadCell (d : RegIdx) (addr : Word) (s : State) : Outcome State Fault Refusal :=
  match s.readCell addr.toNat with
  | none => .next (s.takeFault .outOfBoundsAddress)
  | some v => .next (s.setReg d v)

/-- `Mem[addr] <- x[r]` with the unit's bounds check on its 16-bit address input (R82, R84). -/
def storeCell (r : RegIdx) (addr : Word) (s : State) : Outcome State Fault Refusal :=
  match s.writeCell addr.toNat (s.reg r) with
  | none => .next (s.takeFault .outOfBoundsAddress)
  | some t => .next t

/-- LOAD (R83). -/
def execLoad (d : RegIdx) (addr : Nibble) (s : State) : Outcome State Fault Refusal :=
  loadCell d (effectiveAddress addr) s

/-- STORE (R84): `operand1` is the register that is read (90_conflicts.md C4). -/
def execStore (r : RegIdx) (addr : Nibble) (s : State) : Outcome State Fault Refusal :=
  storeCell r (effectiveAddress addr) s

end Sys2Proof.Machine
end

