-- ==== Sys2Proof/Machine/Sentinel.lean ====
section
/-! DEFINITION. The HALT row, the sentinel word: 42_execution_engine.md R116; 30_encoding.md R69. -/

namespace Sys2Proof.Machine

open Host (Outcome)

/-- HALT: `run_state <- HALTED` and nothing else changes (42_execution_engine.md R116). The step calls it without the
`pc` increment, which the halt test precedes (R115; log 14). -/
def execHalt (s : State) : Outcome State Fault Refusal := .next s.halt

end Sys2Proof.Machine
end

