-- ==== Sys2Proof/Machine/Dispatch.lean ====
section
/-! DEFINITION. What each instruction does, in a state whose `pc` the fetch step has already incremented
(42_execution_engine.md R113, R115; log 15). HALT alone is executed with `pc` not incremented. -/

namespace Sys2Proof.Machine

def exec (i : Instr) (s : State) : Host.Outcome State Fault Refusal :=
  match i with
  | .halt => Sys2Proof.Machine.execHalt s
  | .load _ d addr _ => Sys2Proof.Machine.execLoad d addr s
  | .store _ r addr _ => Sys2Proof.Machine.execStore r addr s
  | .add d a b => Sys2Proof.Machine.execAdd d a b s
  | .addi d imm b => Sys2Proof.Machine.execAddi d imm b s
  | .sub d a b => Sys2Proof.Machine.execSub d a b s
  | .subi d imm b => Sys2Proof.Machine.execSubi d imm b s
  | .and d a b => Sys2Proof.Machine.execAnd d a b s
  | .andi d imm b => Sys2Proof.Machine.execAndi d imm b s
  | .or d a b => Sys2Proof.Machine.execOr d a b s
  | .ori d imm b => Sys2Proof.Machine.execOri d imm b s
  | .xor d a b => Sys2Proof.Machine.execXor d a b s
  | .xori d imm b => Sys2Proof.Machine.execXori d imm b s

end Sys2Proof.Machine
end

