-- ==== Sys2Proof/Machine/Fetch.lean ====
section
/-! DEFINITION. The fetch_unit: 42_execution_engine.md R111; and how the host places one word where the next fetch reads
it: 70_reset_and_hazards.md R152, R153. -/

namespace Sys2Proof.Machine

/-- The fetch_unit's answer: `at_end`, `is_sentinel`, or a word to be dispatched (42_execution_engine.md R111). -/
inductive Fetched where
  | atEnd
  | sentinel
  | word (w : Word)
deriving DecidableEq, Repr

/-- The bounds test on `pc` comes before the memory read, the sentinel test after it, on the value in memory now
(42_execution_engine.md R111, R115, R116; 20_memory.md R52). Writes nothing, signals no fault. -/
def State.fetch (s : State) : Fetched :=
  match s.readCell s.pc with
  | none => .atEnd
  | some w => if w = s.cfg.sentinel then .sentinel else .word w

/-- A state that fetches: `s` itself while it is RUNNING with `pc` inside memory, else `s` after a reset, the only way
a terminal or exhausted machine fetches again (60_exceptions.md R141). -/
def State.readyToFetch (s : State) : State :=
  if s.runState = .running ∧ s.pc < s.cfg.memWords then s else s.coreReset

/-- The host stores `w` in the cell the next step fetches (log 11). -/
def State.placeAtFetch (s : State) (w : Word) : State :=
  { s.readyToFetch with mem := Memory.write s.cfg.sentinel s.mem s.readyToFetch.pc w }

end Sys2Proof.Machine
end

