-- ==== Sys2Proof/Machine/Step.lean ====
section
/-! DEFINITION. One step of the machine: 42_execution_engine.md R113 to R119. -/

namespace Sys2Proof.Machine

/-- A step of a RUNNING machine (R113): halt at the end of memory or at the sentinel, `pc` not incremented; else
increment `pc`, decode, and execute the instruction or take the illegal word's fault. -/
def stepRunning (s : State) : Host.Outcome State Fault Refusal :=
  match s.fetch with
  | .atEnd => .next s.halt
  | .sentinel => exec .halt s
  | .word w =>
    match decode s.cfg w with
    | .instr i => exec i s.incrementPc
    | .illegal r => .next (s.incrementPc.takeIllegal r)

/-- One step. HALTED and FAULTED are terminal: no step is defined in them, and the model stops by name (R119;
DESIGN CHOICE, log 10, safe). -/
def step (s : State) : Host.Outcome State Fault Refusal :=
  match s.runState with
  | .running => stepRunning s
  | .halted => .fault .alreadyHalted
  | .faulted => .fault .alreadyFaulted

/-- `s` with the word `w` (its bits above `nbits` zero) in the cell the next step fetches. It stands for the host's
load of a program: 70_reset_and_hazards.md R152, R153; log 11. -/
def State.withFetchWord (s : State) (nbits w : Nat) : State := s.placeAtFetch (BitVec.ofNat 16 (w % 2 ^ nbits))

end Sys2Proof.Machine
end

