-- ==== Sys2Proof/Machine/Units.lean ====
section
/-! DEFINITION. The machine described by its units instead of by its instructions: the load_store_unit
(40_data_transfer.md R80), the alu (41_alu.md R90), and the execution_controller's step over them
(42_execution_engine.md R112, R113), each as the spec's pseudocode has it. `Step.lean` runs instructions and does not
use this file; that the two descriptions agree is a statement of Certificates/Slice0. -/

namespace Sys2Proof.Machine

/-- What a unit asks for: its one write, or a fault (42_execution_engine.md R113). -/
inductive UnitResult where
  | writeReg (r : RegIdx) (v : Word)
  | writeMem (a : Nat) (v : Word)
  | raise (kind : FaultKind)
deriving DecidableEq, Repr

/-- The load_store_unit (40_data_transfer.md R80), with its 16-bit address input (R81). -/
def loadStoreUnit (s : State) (opcode : BitVec 4) (operand1 : RegIdx) (addr : Word) : UnitResult :=
  if s.cfg.memWords ≤ addr.toNat then .raise .outOfBoundsAddress
  else if opcode = 0b0101#4 then .writeReg operand1 (Memory.read s.cfg.sentinel s.mem addr.toNat)
  else if opcode = 0b0110#4 then .writeMem addr.toNat (s.reg operand1)
  else .raise .invalidDataTransferOpcode

/-- The alu's opcode table (41_alu.md R90 step 3): `none` is "other". -/
def aluFunction (opcode : BitVec 4) (first second : Word) : Option Word :=
  if opcode = 0b0000#4 then some (first + second)
  else if opcode = 0b0001#4 then some (first - second)
  else if opcode = 0b0010#4 then some (first &&& second)
  else if opcode = 0b0011#4 then some (first ||| second)
  else if opcode = 0b0100#4 then some (first ^^^ second)
  else none

/-- The alu (41_alu.md R90): operand resolution with its range check, then the opcode table. -/
def aluUnit (s : State) (opcode : BitVec 4) (iBit : BitVec 1) (operand1 : RegIdx) (operand2 : Nibble)
    (operand3 : RegIdx) : UnitResult :=
  if iBit = 0#1 ∧ 8 ≤ operand2.toNat then .raise .registerIndexOutOfBounds
  else
    let first := if iBit = 1#1 then operand2.setWidth 16 else s.reg (operand2.setWidth 3)
    match aluFunction opcode first (s.reg operand3) with
    | some result => .writeReg operand1 result
    | none => .raise .invalidALUOpcode

/-- The unit that `T` selects (30_encoding.md R71). -/
def dispatchUnit (s : State) (f : Fields) : UnitResult :=
  if f.t = 1#1 then loadStoreUnit s f.opcode f.operand1 (f.operand2.setWidth 16)
  else aluUnit s f.opcode f.i f.operand1 f.operand2 f.operand3

/-- The unit's single write, or the fault record for the instruction fetched from `idx` (60_exceptions.md R138). -/
def commitUnit (s : State) (idx : Nat) : UnitResult → State
  | .writeReg r v => { s with x := s.x.set r.toNat v r.isLt }
  | .writeMem a v => { s with mem := Memory.write s.cfg.sentinel s.mem a v }
  | .raise kind => { s with runState := .faulted, faultKind := kind, faultIndex := idx }

/-- The pseudocode of 42_execution_engine.md R113, for a RUNNING state. -/
def datapathStep (s : State) : State :=
  if s.cfg.memWords ≤ s.pc then { s with runState := .halted }
  else
    let w := Memory.read s.cfg.sentinel s.mem s.pc
    if w = s.cfg.sentinel then { s with runState := .halted }
    else
      let idx := s.pc
      let s1 := { s with pc := s.pc + 1 }
      commitUnit s1 idx (dispatchUnit s1 (fields w))

end Sys2Proof.Machine
end

