-- ==== Sys2Proof/Machine/HostView.lean ====
section
/-! DEFINITION. What the core hands to the host, and the numeric renderings of its control state:
42_execution_engine.md R122; 60_exceptions.md R131, R139; 10_state.md R27. No instruction reads any of it. -/

namespace Sys2Proof.Machine

/-- The 2-bit code of `run_state` (10_state.md R27, spec decision D11: log 17). -/
def runStateCode : RunState → BitVec 2
  | .running => 0b00
  | .halted => 0b01
  | .faulted => 0b10

/-- The 3-bit code of `fault_kind` (60_exceptions.md R131, spec decision D9: log 17). -/
def faultKindCode : FaultKind → BitVec 3
  | .none => 0
  | .outOfBoundsAddress => 1
  | .invalidDataTransferOpcode => 2
  | .registerIndexOutOfBounds => 3
  | .invalidALUOpcode => 4

/-- The final register report: on HALTED the pairs `(i, x[i])` for `i` = 0..7 in that order, else no report
(42_execution_engine.md R122; 60_exceptions.md R139; log 20). -/
def State.report (s : State) : Option (List (Nat × Word)) :=
  if s.runState = .halted then
    some ((List.range 8).map fun i => (i, s.reg (BitVec.ofNat 3 i)))
  else none

/-- The fault diagnostic: on FAULTED the fault kind and the faulting instruction's index, else none
(60_exceptions.md R139; log 20). -/
def State.diagnostic (s : State) : Option (FaultKind × Nat) :=
  if s.runState = .faulted then some (s.faultKind, s.faultIndex) else none

end Sys2Proof.Machine
end

