-- ==== Sys2Proof/Safety.lean ====
section
/-! DEFINITION. What the claims call a sound state, a finished run, and a fault: 10_state.md R24, R28; 42_execution_engine.md
R119; 60_exceptions.md R138, R142. -/

namespace Sys2Proof.Machine

/-- The fault record agrees with `run_state` (10_state.md R28; 60_exceptions.md R138): in FAULTED a kind is recorded and
`pc` stands one past the recorded index, which is an address of memory; else the record holds its reset values. -/
abbrev State.RecordOk (s : State) : Prop :=
  (s.runState = .faulted → s.faultKind ≠ .none ∧ s.pc = s.faultIndex + 1) ∧
  (s.runState ≠ .faulted → s.faultKind = .none ∧ s.faultIndex = 0)

/-- The invariant: legal parameters (00_scope.md R6), `pc` in 0..MEM_WORDS (10_state.md R24), memory in canonical form
with no cell at or above MEM_WORDS, and the fault record in order. -/
abbrev State.Inv (s : State) : Prop :=
  s.cfg.legal = true ∧ s.pc ≤ s.cfg.memWords ∧ Memory.wf s.cfg.sentinel s.cfg.memWords s.mem ∧ s.RecordOk

/-- `t` differs from `s` in no register. -/
abbrev SameRegisters (s t : State) : Prop := ∀ r : RegIdx, t.reg r = s.reg r

/-- `t` differs from `s` in no memory cell, and has the same cells. -/
abbrev SameMemory (s t : State) : Prop := ∀ a : Nat, t.readCell a = s.readCell a

/-- `t` has the run state and fault record of `s`, and its parameters. -/
abbrev SameControl (s t : State) : Prop :=
  t.runState = s.runState ∧ t.faultKind = s.faultKind ∧ t.faultIndex = s.faultIndex ∧ t.cfg = s.cfg

/-- From `s` to `t` the fault of kind `kind` is taken for the instruction at `idx` (60_exceptions.md R138): FAULTED, the
record written, no register, memory cell or parameter changed. -/
abbrev TakesFault (s t : State) (kind : FaultKind) (idx : Nat) : Prop :=
  t.runState = .faulted ∧ t.faultKind = kind ∧ t.faultIndex = idx ∧ t.cfg = s.cfg ∧ SameRegisters s t ∧ SameMemory s t

/-- From `s` to `t` only the register `d` may change: the frame of a register write (41_alu.md R92). -/
abbrev OnlyRegister (s t : State) (d : RegIdx) : Prop :=
  (∀ r : RegIdx, r ≠ d → t.reg r = s.reg r) ∧ SameMemory s t ∧ SameControl s t

/-- From `s` to `t` only the memory cell `a` may change: the frame of a store (40_data_transfer.md R84). -/
abbrev OnlyCell (s t : State) (a : Nat) : Prop :=
  (∀ b : Nat, b ≠ a → t.readCell b = s.readCell b) ∧ SameRegisters s t ∧ SameControl s t

/-- `s` and `s'` agree on everything but the memory cells that no later step can reach: those at 16 and above (no LOAD
names them, 20_memory.md R46) and below `pc` (no later fetch reads them, 42_execution_engine.md R121). -/
abbrev AgreeAhead (s s' : State) : Prop :=
  SameRegisters s s' ∧ SameControl s s' ∧ s'.pc = s.pc ∧
    ∀ a : Nat, a < 16 ∨ s.pc ≤ a → s'.readCell a = s.readCell a

/-- A run of `k` steps of the core from `s` ends in `t` (no step was asked of a terminal state). -/
abbrev RunsTo (k : Nat) (s t : State) : Prop := Sys2Proof.core.run k s = .next t

end Sys2Proof.Machine
end

