-- ==== Sys2Proof/Certificates/Slice0/Obligations.lean ====
section
/-! DEFINITION. The statements for the provers. Every statement holds for every legal or illegal choice of the
parameters `MEM_WORDS` and `SENTINEL` unless it says otherwise (00_scope.md R6, spec decision D3). `exec` is what an
instruction does after the fetch step has incremented `pc` (log 15); `step` is a whole step. -/

namespace Sys2Proof.Table

/-- Mask and match of the twelve rows of 30_encoding.md R66, in the table's order. -/
def rows : List (Word × Word) :=
  [(0xF800, 0xA800), (0xF800, 0xB000), (0xFC40, 0x0000), (0xFC00, 0x0400), (0xFC40, 0x0800), (0xFC00, 0x0C00),
   (0xFC40, 0x1000), (0xFC00, 0x1400), (0xFC40, 0x1800), (0xFC00, 0x1C00), (0xFC40, 0x2000), (0xFC00, 0x2400)]

/-- The row of an instruction; HALT is not one of the twelve. -/
def rowOf : Instr → Option (Word × Word)
  | .halt => none
  | .load _ _ _ _ => some (0xF800, 0xA800)
  | .store _ _ _ _ => some (0xF800, 0xB000)
  | .add _ _ _ => some (0xFC40, 0x0000)
  | .addi _ _ _ => some (0xFC00, 0x0400)
  | .sub _ _ _ => some (0xFC40, 0x0800)
  | .subi _ _ _ => some (0xFC00, 0x0C00)
  | .and _ _ _ => some (0xFC40, 0x1000)
  | .andi _ _ _ => some (0xFC00, 0x1400)
  | .or _ _ _ => some (0xFC40, 0x1800)
  | .ori _ _ _ => some (0xFC00, 0x1C00)
  | .xor _ _ _ => some (0xFC40, 0x2000)
  | .xori _ _ _ => some (0xFC00, 0x2400)

/-- A word that is not the sentinel and matches the row decodes to the instruction that `mk` builds from its
`operand1`, `operand2` and `operand3` fields (30_encoding.md R61, R66). -/
abbrev RowDecodes (mask pattern : Word) (mk : RegIdx → Nibble → RegIdx → Instr) : Prop :=
  ∀ (c : Config) (w : Word), w ≠ c.sentinel → w &&& mask = pattern →
    decode c w = .instr (mk (w.extractLsb' 7 3) (w.extractLsb' 3 4) (w.extractLsb' 0 3))

end Sys2Proof.Table

open Sys2Proof Sys2Proof.Machine Sys2Proof.Table

/-! ### Encoding -/

/-- Derived from 30_encoding.md R63, R66, R69: a well-formed instruction, encoded, decodes to itself with every
operand. Where a parameter `SENTINEL` other than the document's collides with an encoding, that word is the sentinel
and no instruction (R69); at the document's value no instruction collides. HALT's word being `SENTINEL`, and the kept
ignored fields of LOAD and STORE, are the model's choices (log 14, log 9). -/
def Obligations.DecodeOfEncodeIsTheInstruction : Prop :=
  (∀ (c : Config) (i : Instr), i.wf = true → (i ≠ .halt → encode c i ≠ c.sentinel) →
    decode c (encode c i) = .instr i) ∧
  ∀ i : Instr, i ≠ .halt → encode Config.document i ≠ 0xFFFF#16

/-- Derived from 30_encoding.md R66: an instruction the decoder gives is well-formed; and, with the inverse of R63, the
word it was read from is that instruction's encoding. That an instruction has ONE word is the model's own choice, and
no rule of the spec: Instr keeps the `I` and `operand3` fields that LOAD and STORE ignore (log 9; by R64 sixteen words
are one LOAD), and HALT's word follows `SENTINEL` (log 14). -/
def Obligations.EncodeOfDecodeIsTheWord : Prop :=
  ∀ (c : Config) (w : Word) (i : Instr), decode c w = .instr i → i.wf = true ∧ encode c i = w

/-- Derived from 30_encoding.md R61, R63: the six fields of a word, as slices read most significant bit first; together they are the
word, so every bit belongs to exactly one field. -/
def Obligations.FieldsFollowTheLayout : Prop :=
  ∀ w : Word,
    (fields w).t.toNat = w.toNat / 32768 ∧
    (fields w).opcode.toNat = w.toNat / 2048 % 16 ∧
    (fields w).i.toNat = w.toNat / 1024 % 2 ∧
    (fields w).operand1.toNat = w.toNat / 128 % 8 ∧
    (fields w).operand2.toNat = w.toNat / 8 % 16 ∧
    (fields w).operand3.toNat = w.toNat % 8 ∧
    ∀ f : Fields, fields w = f ↔ w = f.toWord

/-- Derived from 30_encoding.md R66 and opcode_table.json, for the twelve rows of R66: the decoder gives a word that is
not the sentinel an instruction of a row exactly when `(w & mask) = match`. That every `SENTINEL` decodes to HALT, before
any row, is the model's choice (log 14, from the spec's decision D14): R66 has no such row, and opcode_table.json's is
the literal 0xFFFF. -/
def Obligations.DecoderFollowsTheOpcodeTable : Prop :=
  (∀ c : Config, decode c c.sentinel = .instr .halt) ∧
  ∀ (c : Config) (w : Word), w ≠ c.sentinel → ∀ row ∈ rows,
    (w &&& row.1 = row.2 ↔ ∃ i, decode c w = .instr i ∧ rowOf i = some row)

/-- Derived from 30_encoding.md R68 and 60_exceptions.md R133: the three classes of illegal words, with the
register-index class first (the order is the spec's decision D7, log 7). -/
def Obligations.IllegalWordsFallInTheirClass : Prop :=
  ∀ (c : Config) (w : Word), w ≠ c.sentinel →
    (decode c w = .illegal .registerIndex ↔
      (fields w).t = 0 ∧ (fields w).i = 0 ∧ 8 ≤ (fields w).operand2.toNat) ∧
    (decode c w = .illegal .aluOpcode ↔
      (fields w).t = 0 ∧ 5 ≤ (fields w).opcode.toNat ∧ ((fields w).i = 1 ∨ (fields w).operand2.toNat < 8)) ∧
    ∀ addr : Nibble, decode c w = .illegal (.dataTransferOpcode addr) ↔
      (fields w).t = 1 ∧ (fields w).opcode ≠ 0b0101 ∧ (fields w).opcode ≠ 0b0110 ∧ (fields w).operand2 = addr

/-- Derived from 95_test_vectors.md Part 2: words written out there, one of each kind of row. That
0xFFFF decodes to an instruction HALT is the model's choice (log 14). -/
def Obligations.SpecExampleWordsDecode : Prop :=
  decode Config.document 0xFFFF#16 = .instr .halt ∧
  decode Config.document 0xA848#16 = .instr (.load 0 0 9 0) ∧
  decode Config.document 0xAFFF#16 = .instr (.load 1 7 15 7) ∧
  decode Config.document 0xB160#16 = .instr (.store 0 2 12 0) ∧
  decode Config.document 0x0529#16 = .instr (.addi 2 5 1) ∧
  decode Config.document 0x0D19#16 = .instr (.subi 2 3 1) ∧
  decode Config.document 0x098A#16 = .instr (.sub 3 1 2) ∧
  decode Config.document 0x27FF#16 = .instr (.xori 7 15 7) ∧
  decode Config.document 0x0141#16 = .illegal .registerIndex ∧
  decode Config.document 0x3909#16 = .illegal .aluOpcode ∧
  decode Config.document 0x8141#16 = .illegal (.dataTransferOpcode 8)

/-! ### The step -/

/-- Derived from 42_execution_engine.md R113, R115: a RUNNING machine whose cell at `pc` is not the sentinel and decodes
to `i` steps as `exec i` does, after `pc` is incremented. The second clause, that at the sentinel `i` is HALT and the
step is `exec .halt` with `pc` not incremented, is the model's choice (log 14): by R113 and 30_encoding.md R69 nothing
is decoded or executed there; the effect is R116's. -/
def Obligations.StepRunsTheDecodedInstruction : Prop :=
  ∀ (s : State) (w : Word) (i : Instr), s.runState = .running → s.readCell s.pc = some w →
    decode s.cfg w = .instr i →
    (w ≠ s.cfg.sentinel → step s = exec i { s with pc := s.pc + 1 }) ∧
    (w = s.cfg.sentinel → i = .halt ∧ step s = exec .halt s)

/-- Derived from 42_execution_engine.md R116: a RUNNING machine halts, by `run_state <- HALTED` and nothing else, exactly
when `pc` is at or past the end of memory or the cell at `pc` holds the sentinel. Two clauses are the model's choice:
that HALT is an executed instruction with this effect (log 14; R116 says there is no halt instruction), and that
detecting the halt is a step of its own (log 19, the spec's decision D19). -/
def Obligations.HaltConditionAndEffect : Prop :=
  (∀ s : State, ∃ t, exec .halt s = .next t ∧ t.runState = .halted ∧ t.pc = s.pc ∧ t.faultKind = s.faultKind ∧
    t.faultIndex = s.faultIndex ∧ t.cfg = s.cfg ∧ SameRegisters s t ∧ SameMemory s t) ∧
  ∀ s : State, s.runState = .running →
    ((s.cfg.memWords ≤ s.pc ∨ s.readCell s.pc = some s.cfg.sentinel) →
      step s = .next { s with runState := .halted }) ∧
    ∀ t, step s = .next t → t.runState = .halted →
      s.cfg.memWords ≤ s.pc ∨ s.readCell s.pc = some s.cfg.sentinel

/-- Derived from 42_execution_engine.md R119: HALTED and FAULTED are terminal. That the model answers a named stop is
its own choice (log 10). -/
def Obligations.TerminalStatesTakeNoStep : Prop :=
  ∀ (k : Nat) (s : State), s.runState ≠ .running →
    (s.runState = .halted → Sys2Proof.core.run (k + 1) s = .fault .alreadyHalted) ∧
    (s.runState = .faulted → Sys2Proof.core.run (k + 1) s = .fault .alreadyFaulted)

/-- Derived from 42_execution_engine.md R124, 30_encoding.md R68 and 40_data_transfer.md R82: the step is total on RUNNING
states, by a next state and never by a refusal; that state is FAULTED exactly when the fetched word is not the sentinel
and is illegal, or is a word with `T = 1` whose address is out of bounds. -/
def Obligations.StepIsTotalWhileRunning : Prop :=
  ∀ s : State, s.runState = .running → ∃ t, step s = .next t ∧
    (t.runState = .faulted ↔ ∃ w, s.readCell s.pc = some w ∧ w ≠ s.cfg.sentinel ∧
      ((∃ r, decode s.cfg w = .illegal r) ∨
       (fields w).t = 1 ∧ s.cfg.memWords ≤ (fields w).operand2.toNat))

/-- Derived from 10_state.md R25 and 42_execution_engine.md R115, R121: a step that halts leaves `pc`, every other step
(one that faults too: spec decision D10, log 6) adds 1 to it, inside memory. -/
def Obligations.PcMovesByOneOrTheMachineHalts : Prop :=
  ∀ s t : State, s.runState = .running → step s = .next t →
    (t.runState = .halted ∧ t.pc = s.pc) ∨
    (t.runState ≠ .halted ∧ t.pc = s.pc + 1 ∧ s.pc < s.cfg.memWords)

/-- Derived from 10_state.md R33 and 42_execution_engine.md R114: what a step writes beside `pc`, read off the fetched
word: a STORE word one memory cell, the one at its effective address, which is below 16; a LOAD or ALU word one register,
the one in `operand1`; a LOAD or STORE out of bounds and every other word the run state with the fault record; at the
end of memory or at the sentinel the run state alone; and never the parameters. That a halt is a step (log 19) and that
LOAD and STORE words ignore `I` and `operand3` (log 9) are the model's choices. -/
def Obligations.StepWritesAtMostOnePlace : Prop :=
  ∀ s : State, s.runState = .running → Memory.wf s.cfg.sentinel s.cfg.memWords s.mem →
    ∃ t, step s = .next t ∧ t.cfg = s.cfg ∧
      (s.cfg.memWords ≤ s.pc ∨ s.readCell s.pc = some s.cfg.sentinel →
        t.runState = .halted ∧ t.faultKind = s.faultKind ∧ t.faultIndex = s.faultIndex ∧
          SameRegisters s t ∧ SameMemory s t) ∧
      ∀ w, s.readCell s.pc = some w → w ≠ s.cfg.sentinel →
        ∀ a : Nat, a = (effectiveAddress (fields w).operand2).toNat →
          (IsStoreWord w → a < 16 ∧ (a < s.cfg.memWords → OnlyCell s t a) ∧
            (s.cfg.memWords ≤ a → TakesFault s t .outOfBoundsAddress s.pc)) ∧
          (IsLoadWord w → (a < s.cfg.memWords → OnlyRegister s t (fields w).operand1) ∧
            (s.cfg.memWords ≤ a → TakesFault s t .outOfBoundsAddress s.pc)) ∧
          (IsAluWord w → OnlyRegister s t (fields w).operand1) ∧
          (¬ IsStoreWord w → ¬ IsLoadWord w → ¬ IsAluWord w →
            ∃ kind, kind ≠ .none ∧ TakesFault s t kind s.pc)

/-- Derived from 20_memory.md R50, R52: the word a STORE puts in the very next cell is what the next step fetches: it
halts the machine if it is the sentinel, else is the instruction that runs, and an illegal one takes its fault with the
index of that next cell. The spec infers R50 (log 18). A halting step (log 19), `pc` after the fault (decision D10, log 6)
and the fault's kind where two defects meet (D7, D8: log 7, log 8) are choices, no rule's. -/
def Obligations.StoredWordIsFetchedNext : Prop :=
  ∀ (s t : State) (iBit : BitVec 1) (r : RegIdx) (addr : Nibble) (op3 : BitVec 3),
    s.runState = .running → Memory.wf s.cfg.sentinel s.cfg.memWords s.mem →
    s.readCell s.pc = some (encode s.cfg (.store iBit r addr op3)) →
    encode s.cfg (.store iBit r addr op3) ≠ s.cfg.sentinel →
    addr.toNat = s.pc + 1 → addr.toNat < s.cfg.memWords → step s = .next t →
    (s.reg r = s.cfg.sentinel → step t = .next { t with runState := .halted }) ∧
    (∀ i, s.reg r ≠ s.cfg.sentinel → decode s.cfg (s.reg r) = .instr i →
      step t = exec i { t with pc := s.pc + 2 }) ∧
    (∀ why, decode s.cfg (s.reg r) = .illegal why →
      ∃ u, step t = .next u ∧ TakesFault t u (illegalFaultKind s.cfg why) (s.pc + 1) ∧ u.pc = s.pc + 2)

/-- Derived from 42_execution_engine.md R112, R113, 40_data_transfer.md R80 and 41_alu.md R90: the step by instructions
and the step by units (the pseudocode of those rules) are the same step. Both follow the spec's decisions D7 and D8 in
the order of a unit's checks (aluUnit: log 7; loadStoreUnit: log 8) and D10 in `pc` after a fault (commitUnit: log 6). -/
def Obligations.StepAgreesWithTheUnits : Prop :=
  ∀ s : State, s.runState = .running → step s = .next (datapathStep s)

/-! ### Faults -/

/-- Derived from 60_exceptions.md R138: an illegal word's fault: FAULTED, kind and index recorded, no register and no
cell written, and `pc` one past the word (spec decision D10, log 6). The kind of a word with two defects follows the
spec's decisions D7 and D8 (log 7, log 8). -/
def Obligations.IllegalWordTakesItsFault : Prop :=
  ∀ (s : State) (w : Word) (r : Illegal), s.runState = .running → s.readCell s.pc = some w →
    decode s.cfg w = .illegal r →
    ∃ t, step s = .next t ∧ TakesFault s t (illegalFaultKind s.cfg r) s.pc ∧ t.pc = s.pc + 1

/-- Derived from 41_alu.md R106: a register form whose `operand2` is 8 or more raises RegisterIndexOutOfBounds,
whatever its opcode (the order against the opcode check is spec decision D7, log 7), writing nothing; `pc` is spec
decision D10 (log 6). -/
def Obligations.RegisterIndexOutOfBoundsFault : Prop :=
  (∀ (s : State) (w : Word), s.runState = .running → s.readCell s.pc = some w → w ≠ s.cfg.sentinel →
    (fields w).t = 0 → (fields w).i = 0 → 8 ≤ (fields w).operand2.toNat →
    ∃ t, step s = .next t ∧ TakesFault s t .registerIndexOutOfBounds s.pc ∧ t.pc = s.pc + 1) ∧
  ∀ (s : State) (d : RegIdx) (a : Nibble) (b : RegIdx), 8 ≤ a.toNat →
    ∀ i ∈ [Instr.add d a b, .sub d a b, .and d a b, .or d a b, .xor d a b],
      ∃ t, exec i s = .next t ∧ TakesFault s t .registerIndexOutOfBounds (s.pc - 1) ∧ t.pc = s.pc

/-- Derived from 41_alu.md R105: an undefined ALU opcode that passed the operand check raises InvalidALUOpcode. That the
operand check comes first is spec decision D7 (log 7), `pc` is spec decision D10 (log 6). -/
def Obligations.InvalidAluOpcodeFault : Prop :=
  ∀ (s : State) (w : Word), s.runState = .running → s.readCell s.pc = some w → w ≠ s.cfg.sentinel →
    (fields w).t = 0 → 5 ≤ (fields w).opcode.toNat → (fields w).i = 1 ∨ (fields w).operand2.toNat < 8 →
    ∃ t, step s = .next t ∧ TakesFault s t .invalidALUOpcode s.pc ∧ t.pc = s.pc + 1

/-- Derived from 40_data_transfer.md R80, R85: an undefined data-transfer opcode raises InvalidDataTransferOpcode, after
the bounds check of R82 has passed (spec decision D8, log 8); `pc` is spec decision D10 (log 6). -/
def Obligations.InvalidDataTransferOpcodeFault : Prop :=
  ∀ (s : State) (w : Word), s.runState = .running → s.readCell s.pc = some w → w ≠ s.cfg.sentinel →
    (fields w).t = 1 → (fields w).opcode ≠ 0b0101 → (fields w).opcode ≠ 0b0110 →
    ∃ t, step s = .next t ∧ t.pc = s.pc + 1 ∧
      TakesFault s t
        (if s.cfg.memWords ≤ (fields w).operand2.toNat then .outOfBoundsAddress else .invalidDataTransferOpcode) s.pc

/-- Derived from 40_data_transfer.md R81, R82 and 60_exceptions.md R138: at an address at or above MEM_WORDS a LOAD, a
STORE and the load_store_unit's accesses at any 16-bit address (spec decision D15, log 16) take OutOfBoundsAddress and
access nothing; from 16 words of memory up no LOAD or STORE can. That `pc` keeps its incremented value in FAULTED, the
clause `t.pc = s.pc`, is spec decision D10 (log 6). -/
def Obligations.OutOfBoundsAddressFault : Prop :=
  (∀ (s : State) (r : RegIdx) (addr : Word), s.cfg.memWords ≤ addr.toNat →
    ∃ t, loadCell r addr s = .next t ∧ storeCell r addr s = .next t ∧
      TakesFault s t .outOfBoundsAddress (s.pc - 1) ∧ t.pc = s.pc) ∧
  (∀ (s : State) (iBit : BitVec 1) (r : RegIdx) (addr : Nibble) (op3 : BitVec 3), s.cfg.memWords ≤ addr.toNat →
    ∃ t, exec (.load iBit r addr op3) s = .next t ∧ exec (.store iBit r addr op3) s = .next t ∧
      TakesFault s t .outOfBoundsAddress (s.pc - 1) ∧ t.pc = s.pc) ∧
  ∀ (s : State) (iBit : BitVec 1) (r : RegIdx) (addr : Nibble) (op3 : BitVec 3), 16 ≤ s.cfg.memWords →
    ∃ t u, exec (.load iBit r addr op3) s = .next t ∧ exec (.store iBit r addr op3) s = .next u ∧
      t.runState = s.runState ∧ u.runState = s.runState

/-- Derived from 60_exceptions.md R134: with 16 words of memory or more, a legal word or the sentinel never faults,
whatever the data. -/
def Obligations.LegalWordsNeverFault : Prop :=
  ∀ (s t : State) (w : Word) (i : Instr), s.runState = .running → 16 ≤ s.cfg.memWords →
    s.readCell s.pc = some w → decode s.cfg w = .instr i → step s = .next t → t.runState ≠ .faulted

/-! ### Data transfer -/

/-- Derived from 40_data_transfer.md R81, R83: LOAD copies the cell into the register and changes nothing else. That the
`I` and `operand3` fields are ignored is the spec's own inference (30_encoding.md R64, D6; log 9). -/
def Obligations.LoadCopiesCellToRegister : Prop :=
  (∀ (s : State) (iBit : BitVec 1) (d : RegIdx) (addr : Nibble) (op3 : BitVec 3), addr.toNat < s.cfg.memWords →
    ∃ t, exec (.load iBit d addr op3) s = .next t ∧ s.readCell addr.toNat = some (t.reg d) ∧
      OnlyRegister s t d ∧ t.pc = s.pc) ∧
  ∀ (c : Config) (w : Word), w ≠ c.sentinel → w &&& 0xF800#16 = 0xA800#16 →
    decode c w = .instr (.load (w.extractLsb' 10 1) (w.extractLsb' 7 3) (w.extractLsb' 3 4) (w.extractLsb' 0 3))

/-- Derived from 40_data_transfer.md R81, R84: STORE copies the register into the cell at its effective address, which
is the 4-bit field, and changes nothing else. That the `I` and `operand3` fields are ignored is the spec's own inference
(30_encoding.md R64, D6; log 9). Memory is in canonical form, which every step keeps (InvariantKeptByEveryStep). -/
def Obligations.StoreCopiesRegisterToCell : Prop :=
  (∀ (s : State) (iBit : BitVec 1) (r : RegIdx) (addr : Nibble) (op3 : BitVec 3),
    Memory.wf s.cfg.sentinel s.cfg.memWords s.mem → addr.toNat < s.cfg.memWords →
    ∃ t, exec (.store iBit r addr op3) s = .next t ∧
      (∀ a : Nat, a = (effectiveAddress addr).toNat →
        a = addr.toNat ∧ t.readCell a = some (s.reg r) ∧ OnlyCell s t a) ∧ t.pc = s.pc) ∧
  ∀ (c : Config) (w : Word), w ≠ c.sentinel → w &&& 0xF800#16 = 0xB000#16 →
    decode c w = .instr (.store (w.extractLsb' 10 1) (w.extractLsb' 7 3) (w.extractLsb' 3 4) (w.extractLsb' 0 3))

/-! ### The ten ALU instructions -/

/-- 41_alu.md R93, ADD. -/
def Obligations.AddRegisterForm : Prop :=
  (∀ (s : State) (d : RegIdx) (a : Nibble) (b : RegIdx), a.toNat < 8 →
    ∃ t, exec (.add d a b) s = .next t ∧
      (t.reg d).toNat = ((s.reg (a.setWidth 3)).toNat + (s.reg b).toNat) % 65536 ∧
      OnlyRegister s t d ∧ t.pc = s.pc) ∧
  RowDecodes 0xFC40 0x0000 .add

/-- 41_alu.md R94, ADDI. -/
def Obligations.AddImmediateForm : Prop :=
  (∀ (s : State) (d : RegIdx) (imm : Nibble) (b : RegIdx),
    ∃ t, exec (.addi d imm b) s = .next t ∧
      (t.reg d).toNat = (imm.toNat + (s.reg b).toNat) % 65536 ∧
      OnlyRegister s t d ∧ t.pc = s.pc) ∧
  RowDecodes 0xFC00 0x0400 .addi

/-- 41_alu.md R95, SUB. -/
def Obligations.SubRegisterForm : Prop :=
  (∀ (s : State) (d : RegIdx) (a : Nibble) (b : RegIdx), a.toNat < 8 →
    ∃ t, exec (.sub d a b) s = .next t ∧
      ((t.reg d).toNat = if (s.reg b).toNat ≤ (s.reg (a.setWidth 3)).toNat
        then (s.reg (a.setWidth 3)).toNat - (s.reg b).toNat
        else (s.reg (a.setWidth 3)).toNat + 65536 - (s.reg b).toNat) ∧
      OnlyRegister s t d ∧ t.pc = s.pc) ∧
  RowDecodes 0xFC40 0x0800 .sub

/-- 41_alu.md R96, SUBI: the immediate is the minuend. -/
def Obligations.SubImmediateForm : Prop :=
  (∀ (s : State) (d : RegIdx) (imm : Nibble) (b : RegIdx),
    ∃ t, exec (.subi d imm b) s = .next t ∧
      ((t.reg d).toNat : Int) = ((imm.toNat : Int) - ((s.reg b).toNat : Int)) % 65536 ∧
      OnlyRegister s t d ∧ t.pc = s.pc) ∧
  RowDecodes 0xFC00 0x0C00 .subi

/-- 41_alu.md R97, AND. -/
def Obligations.AndRegisterForm : Prop :=
  (∀ (s : State) (d : RegIdx) (a : Nibble) (b : RegIdx), a.toNat < 8 →
    ∃ t, exec (.and d a b) s = .next t ∧
      (∀ k < 16, (t.reg d).getLsbD k = true ↔
        (s.reg (a.setWidth 3)).getLsbD k = true ∧ (s.reg b).getLsbD k = true) ∧
      OnlyRegister s t d ∧ t.pc = s.pc) ∧
  RowDecodes 0xFC40 0x1000 .and

/-- 41_alu.md R98, ANDI: the immediate has 0 in bits 15:4, so the result is in 0..15. -/
def Obligations.AndImmediateForm : Prop :=
  (∀ (s : State) (d : RegIdx) (imm : Nibble) (b : RegIdx),
    ∃ t, exec (.andi d imm b) s = .next t ∧
      (∀ k < 4, (t.reg d).getLsbD k = true ↔ imm.getLsbD k = true ∧ (s.reg b).getLsbD k = true) ∧
      (t.reg d).toNat ≤ 15 ∧
      OnlyRegister s t d ∧ t.pc = s.pc) ∧
  RowDecodes 0xFC00 0x1400 .andi

/-- 41_alu.md R99, OR. -/
def Obligations.OrRegisterForm : Prop :=
  (∀ (s : State) (d : RegIdx) (a : Nibble) (b : RegIdx), a.toNat < 8 →
    ∃ t, exec (.or d a b) s = .next t ∧
      (∀ k < 16, (t.reg d).getLsbD k = true ↔
        (s.reg (a.setWidth 3)).getLsbD k = true ∨ (s.reg b).getLsbD k = true) ∧
      OnlyRegister s t d ∧ t.pc = s.pc) ∧
  RowDecodes 0xFC40 0x1800 .or

/-- 41_alu.md R100, ORI: bits 15:4 of the result are those of the register. -/
def Obligations.OrImmediateForm : Prop :=
  (∀ (s : State) (d : RegIdx) (imm : Nibble) (b : RegIdx),
    ∃ t, exec (.ori d imm b) s = .next t ∧
      (∀ k < 4, (t.reg d).getLsbD k = true ↔ imm.getLsbD k = true ∨ (s.reg b).getLsbD k = true) ∧
      (∀ k, 4 ≤ k → (t.reg d).getLsbD k = (s.reg b).getLsbD k) ∧
      OnlyRegister s t d ∧ t.pc = s.pc) ∧
  RowDecodes 0xFC00 0x1C00 .ori

/-- 41_alu.md R101, XOR. -/
def Obligations.XorRegisterForm : Prop :=
  (∀ (s : State) (d : RegIdx) (a : Nibble) (b : RegIdx), a.toNat < 8 →
    ∃ t, exec (.xor d a b) s = .next t ∧
      (∀ k < 16, (t.reg d).getLsbD k = true ↔
        (s.reg (a.setWidth 3)).getLsbD k ≠ (s.reg b).getLsbD k) ∧
      OnlyRegister s t d ∧ t.pc = s.pc) ∧
  RowDecodes 0xFC40 0x2000 .xor

/-- 41_alu.md R102, XORI: bits 15:4 of the register pass through. -/
def Obligations.XorImmediateForm : Prop :=
  (∀ (s : State) (d : RegIdx) (imm : Nibble) (b : RegIdx),
    ∃ t, exec (.xori d imm b) s = .next t ∧
      (∀ k < 4, (t.reg d).getLsbD k = true ↔ imm.getLsbD k ≠ (s.reg b).getLsbD k) ∧
      (∀ k, 4 ≤ k → (t.reg d).getLsbD k = (s.reg b).getLsbD k) ∧
      OnlyRegister s t d ∧ t.pc = s.pc) ∧
  RowDecodes 0xFC00 0x2400 .xori

/-- 41_alu.md R92: a step over any of the ten ALU encodings, read off the word: `first` is the immediate or the register
in `operand2`, `second` is `x[operand3]`, the opcode's function of the two goes to `x[operand1]`, and nothing else but
`pc` changes. Sources are read before the destination is written, so they may be the same register. -/
def Obligations.AluEncodingsWriteTheirResult : Prop :=
  ∀ (s : State) (w : Word), s.runState = .running → s.readCell s.pc = some w → w ≠ s.cfg.sentinel →
    (fields w).t = 0 → (fields w).opcode.toNat ≤ 4 → ((fields w).i = 1 ∨ (fields w).operand2.toNat < 8) →
    ∃ t, step s = .next t ∧
      aluFunction (fields w).opcode
        (if (fields w).i = 1 then BitVec.ofNat 16 (fields w).operand2.toNat
          else s.reg (BitVec.ofNat 3 (fields w).operand2.toNat))
        (s.reg (fields w).operand3) = some (t.reg (fields w).operand1) ∧
      OnlyRegister s t (fields w).operand1 ∧ t.pc = s.pc + 1

/-- Derived from 30_encoding.md R73 (spec decision D16): the four pseudo-instructions: HALT is the word 0xFFFF, which halts; NOP leaves every register;
MOV copies; CLR clears; each with its word. HALT as an executed instruction is the model's choice (log 14). -/
def Obligations.PseudoInstructions : Prop :=
  (decode Config.document 0xFFFF#16 = .instr .halt ∧ ∀ s, exec .halt s = .next { s with runState := .halted }) ∧
  (decode Config.document 0x1800#16 = .instr (.or 0 0 0) ∧ ∀ s, exec (.or 0 0 0) s = .next s) ∧
  (∀ d r : RegIdx,
    decode Config.document (BitVec.ofNat 16 (0x1800 + d.toNat * 128 + r.toNat * 8 + r.toNat)) =
      .instr (.or d (r.setWidth 4) r) ∧
    ∀ s, ∃ t, exec (.or d (r.setWidth 4) r) s = .next t ∧ t.reg d = s.reg r ∧ OnlyRegister s t d ∧ t.pc = s.pc) ∧
  ∀ d : RegIdx,
    decode Config.document (BitVec.ofNat 16 (0x2000 + d.toNat * 128 + d.toNat * 8 + d.toNat)) =
      .instr (.xor d (d.setWidth 4) d) ∧
    ∀ s, ∃ t, exec (.xor d (d.setWidth 4) d) s = .next t ∧ t.reg d = 0 ∧ OnlyRegister s t d ∧ t.pc = s.pc

/-! ### Memory -/

/-- Derived from 20_memory.md R45, R47, R48: below the capacity a write succeeds, the cell reads back what was written,
every other cell and everything else is as before, and the form stays canonical; at or above it nothing is accessed. -/
def Obligations.CellReadsBackWhatWasWritten : Prop :=
  ∀ (s : State) (a : Nat) (v : Word), Memory.wf s.cfg.sentinel s.cfg.memWords s.mem →
    (a < s.cfg.memWords → ∃ t, s.writeCell a v = some t ∧ t.readCell a = some v ∧ OnlyCell s t a ∧ t.pc = s.pc ∧
      Memory.wf t.cfg.sentinel t.cfg.memWords t.mem) ∧
    (s.cfg.memWords ≤ a → s.writeCell a v = none ∧ s.readCell a = none)

/-- The model's own form of memory (log 1, log 3), derived from 10_state.md R31: two canonical memories that read alike
in every cell are the same data. -/
def Obligations.EqualCellsAreEqualMemories : Prop :=
  ∀ (fill : Word) (cap : Nat) (m m' : Memory), Memory.wf fill cap m → Memory.wf fill cap m' →
    (∀ a < cap, Memory.read fill m a = Memory.read fill m' a) → m = m'

/-- Derived from 20_memory.md R46: in a run of any length the cells at 16 and above keep their values, and the
parameters do not change. -/
def Obligations.CellsFromSixteenUpNeverChange : Prop :=
  ∀ (k : Nat) (s t : State), Memory.wf s.cfg.sentinel s.cfg.memWords s.mem → RunsTo k s t →
    t.cfg = s.cfg ∧ ∀ a, 16 ≤ a → t.readCell a = s.readCell a

/-- Derived from 20_memory.md R46, R51 and 42_execution_engine.md R121: cells at 16 and above that `pc` has passed never
matter again: two states that differ there alone make runs that differ there alone. -/
def Obligations.PassedCellsNeverMatter : Prop :=
  ∀ (k : Nat) (s s' t : State), Memory.wf s.cfg.sentinel s.cfg.memWords s.mem →
    Memory.wf s'.cfg.sentinel s'.cfg.memWords s'.mem → AgreeAhead s s' → RunsTo k s t →
    ∃ t', RunsTo k s' t' ∧ AgreeAhead t t'

/-! ### Invariants and whole runs -/

/-- Derived from 10_state.md R24, R28, R31 and 60_exceptions.md R138: legal parameters, `pc` in 0..MEM_WORDS, canonical
memory and an orderly fault record are kept by every step, from every state that has them. The record's rest value and
`pc` after a fault are the spec's decisions D12 and D10 (log 4, log 6). -/
def Obligations.InvariantKeptByEveryStep : Prop :=
  ∀ s t : State, s.Inv → step s = .next t → t.Inv

/-- The reset state has the invariant. -/
def Obligations.InvariantHoldsAtReset : Prop := State.reset.Inv

/-- Derived from 10_state.md R34 and 70_reset_and_hazards.md R152: the start of a run on any legal parameters and any
image: the invariant holds, registers and `pc` are 0, RUNNING, no fault record (spec decision D12, log 4), every cell
holds its word of the image, and no other cell exists. -/
def Obligations.StartHoldsTheImage : Prop :=
  ∀ (c : Config) (init : Nat → Word), c.legal = true →
    (State.startWith c init).Inv ∧ (State.startWith c init).cfg = c ∧
    (State.startWith c init).pc = 0 ∧ (State.startWith c init).runState = .running ∧
    (∀ r, (State.startWith c init).reg r = 0) ∧
    ∀ a, (State.startWith c init).readCell a = if a < c.memWords then some (init a) else none

/-- Derived from 70_reset_and_hazards.md R150, R151 (spec decisions D12, D18: log 4, log 11): reset sets registers, `pc`,
run state and fault record from any state, terminal or not, and leaves every memory cell and the parameters. -/
def Obligations.ResetSetsTheCoreAndKeepsMemory : Prop :=
  (∀ s : State, (∀ r, s.coreReset.reg r = 0) ∧ s.coreReset.pc = 0 ∧ s.coreReset.runState = .running ∧
    s.coreReset.faultKind = .none ∧ s.coreReset.faultIndex = 0 ∧ s.coreReset.cfg = s.cfg ∧ SameMemory s s.coreReset) ∧
  State.reset = State.startWith Config.document (fun _ => 0xFFFF#16)

/-- Derived from 42_execution_engine.md R117: the zero-instruction run: an image whose cell 0 holds the sentinel halts in
one step with `pc` 0, and the report is all zeros. The halt as one step and the form of the outputs are choices (D19:
log 19; D20: log 20). -/
def Obligations.ZeroInstructionRunReportsZeros : Prop :=
  ∀ (c : Config) (init : Nat → Word), c.legal = true → init 0 = c.sentinel →
    ∃ t, step (State.startWith c init) = .next t ∧ t.pc = 0 ∧
      t.report = some [(0, 0), (1, 0), (2, 0), (3, 0), (4, 0), (5, 0), (6, 0), (7, 0)] ∧ t.diagnostic = none

/-- Derived from 42_execution_engine.md R122 and 60_exceptions.md R139: after a step of a RUNNING machine the host gets a
report of the eight registers exactly on HALTED and a diagnostic exactly on FAULTED, naming the instruction the step
fetched; the form of the outputs is spec decision D20 (log 20). -/
def Obligations.OutputsFollowTheRunState : Prop :=
  ∀ s t : State, s.runState = .running → step s = .next t →
    (t.report = if t.runState = .halted then
      some [(0, s.reg 0), (1, s.reg 1), (2, s.reg 2), (3, s.reg 3), (4, s.reg 4), (5, s.reg 5), (6, s.reg 6),
        (7, s.reg 7)] else none) ∧
    (t.runState ≠ .faulted → t.diagnostic = none) ∧
    (t.runState = .faulted → ∃ kind, kind ≠ .none ∧ t.diagnostic = some (kind, s.pc))

/-- Derived from 42_execution_engine.md R121: every run ends: from a RUNNING state the machine reaches HALTED or FAULTED
within `MEM_WORDS - pc + 1` steps (513 from reset at the document's values), the halt counted as a step (log 19). -/
def Obligations.EveryRunEnds : Prop :=
  ∀ s : State, s.runState = .running → s.pc ≤ s.cfg.memWords →
    ∃ k t, k ≤ s.cfg.memWords - s.pc + 1 ∧ RunsTo k s t ∧ t.runState ≠ .running

/-- Derived from 60_exceptions.md R134 and 42_execution_engine.md R116, R121: a program whose cells from `pc` up are legal
words or sentinels, none of them a STORE, ends in HALTED, never FAULTED, whatever its data; the halt counts as a step
(log 19). -/
def Obligations.StoreFreeLegalProgramsHalt : Prop :=
  ∀ s : State, s.runState = .running → s.pc ≤ s.cfg.memWords → 16 ≤ s.cfg.memWords →
    (∀ a w, s.pc ≤ a → s.readCell a = some w →
      ∃ i, decode s.cfg w = .instr i ∧ ∀ iBit r addr op3, i ≠ .store iBit r addr op3) →
    ∃ k t, k ≤ s.cfg.memWords - s.pc + 1 ∧ RunsTo k s t ∧ t.runState = .halted

/-- Derived from 70_reset_and_hazards.md R152, R153: a word that decodes to an instruction, placed by the host with
`withFetchWord`, is what the very next step runs; an illegal placed word takes the fault of IllegalWordTakesItsFault.
That `withFetchWord` stands for the host's load is the model's choice (log 11), and so is the second clause, that a
placed sentinel makes the step `exec .halt` without the increment of `pc` (log 14). -/
def Obligations.PlacedWordRunsNext : Prop :=
  ∀ (s : State) (w : Nat) (i : Instr), s.cfg.legal = true → Memory.wf s.cfg.sentinel s.cfg.memWords s.mem →
    w < 65536 → decode s.cfg (BitVec.ofNat 16 w) = .instr i →
    (i ≠ .halt → step (s.withFetchWord 16 w) = exec i (s.withFetchWord 16 w).incrementPc) ∧
    (i = .halt → step (s.withFetchWord 16 w) = exec .halt (s.withFetchWord 16 w))
end

