-- ==== Sys2Proof/Laws/Decode.lean ====
section
/-! SUPPORT. The word and its six fields, and what a word can decode to. -/

namespace Sys2Proof

/-- Extraction after packing gives the fields back. -/
@[simp] theorem fields_toWord (f : Fields) : fields f.toWord = f := by
  obtain ⟨t, o, i, a, b, c⟩ := f
  have ht := t.isLt; have ho := o.isLt; have hi := i.isLt
  have ha := a.isLt; have hb := b.isLt; have hc := c.isLt
  simp only [fields, Fields.toWord, Fields.mk.injEq]
  refine ⟨?_, ?_, ?_, ?_, ?_, ?_⟩ <;>
    (apply BitVec.eq_of_toNat_eq
     simp only [BitVec.extractLsb'_toNat, BitVec.toNat_ofNat, Nat.shiftRight_eq_div_pow]
     omega)

/-- Packing after extraction gives the word back: the fields cover the word. -/
@[simp] theorem toWord_fields (w : Word) : (fields w).toWord = w := by
  have hw := w.isLt
  apply BitVec.eq_of_toNat_eq
  simp only [fields, Fields.toWord, BitVec.extractLsb'_toNat, BitVec.toNat_ofNat, Nat.shiftRight_eq_div_pow]
  omega

/-! The slices one by one (30_encoding.md R61). -/

theorem fields_t (w : Word) : (fields w).t = w.extractLsb' 15 1 := rfl
theorem fields_opcode (w : Word) : (fields w).opcode = w.extractLsb' 11 4 := rfl
theorem fields_i (w : Word) : (fields w).i = w.extractLsb' 10 1 := rfl
theorem fields_operand1 (w : Word) : (fields w).operand1 = w.extractLsb' 7 3 := rfl
theorem fields_operand2 (w : Word) : (fields w).operand2 = w.extractLsb' 3 4 := rfl
theorem fields_operand3 (w : Word) : (fields w).operand3 = w.extractLsb' 0 3 := rfl

/-- The decoder is injective (30_encoding.md R62). -/
theorem fields_injective {v w : Word} (h : fields v = fields w) : v = w := by
  rw [← toWord_fields v, h, toWord_fields]

/-- Masking a word masks each field with the field of the mask: how a row's mask and match (30_encoding.md R66) are read
as conditions on fields. -/
theorem fields_and (v w : Word) : fields (v &&& w) =
    ⟨(fields v).t &&& (fields w).t, (fields v).opcode &&& (fields w).opcode, (fields v).i &&& (fields w).i,
      (fields v).operand1 &&& (fields w).operand1, (fields v).operand2 &&& (fields w).operand2,
      (fields v).operand3 &&& (fields w).operand3⟩ := by
  simp only [fields, BitVec.extractLsb'_and]

/-- A word matches a row exactly when its masked fields are the row's. -/
theorem matches_iff_fields (w mask pattern : Word) :
    w &&& mask = pattern ↔ fields (w &&& mask) = fields pattern :=
  ⟨fun h => h ▸ rfl, fields_injective⟩

theorem encode_halt (c : Config) : encode c .halt = c.sentinel := if_pos rfl

theorem encode_of_ne_halt (c : Config) {i : Instr} (h : i ≠ .halt) : encode c i = i.fields.toWord := if_neg h

theorem decode_sentinel (c : Config) : decode c c.sentinel = .instr .halt := if_pos rfl

theorem decode_of_ne_sentinel {c : Config} {w : Word} (h : w ≠ c.sentinel) :
    decode c w = decodeFields (fields w) := if_neg h

/-- The destination register, if the instruction is one of the ten ALU instructions. -/
def Instr.aluDest : Instr → Option RegIdx
  | .halt | .load _ _ _ _ | .store _ _ _ _ => none
  | .add d _ _ | .addi d _ _ | .sub d _ _ | .subi d _ _ | .and d _ _ | .andi d _ _ | .or d _ _ | .ori d _ _
  | .xor d _ _ | .xori d _ _ => some d

/-- Everything a word that is not the sentinel can decode to, by its fields: a STORE, a LOAD, a well-formed ALU instruction
that writes the register in `operand1`, or, of every other word, the name of a class of illegal words. -/
theorem decode_cases {c : Config} {w : Word} (h : w ≠ c.sentinel) :
    (IsStoreWord w ∧
      decode c w = .instr (.store (fields w).i (fields w).operand1 (fields w).operand2 (fields w).operand3)) ∨
    (IsLoadWord w ∧
      decode c w = .instr (.load (fields w).i (fields w).operand1 (fields w).operand2 (fields w).operand3)) ∨
    (IsAluWord w ∧ ∃ i, decode c w = .instr i ∧ i.wf = true ∧ i.aluDest = some (fields w).operand1) ∨
    (¬ IsStoreWord w ∧ ¬ IsLoadWord w ∧ ¬ IsAluWord w ∧ ∃ r, decode c w = .illegal r) := by
  unfold IsStoreWord IsLoadWord IsAluWord
  rw [decode_of_ne_sentinel h]
  generalize fields w = f
  obtain ⟨t, o, i, a, b, d⟩ := f
  unfold decodeFields decodeDataTransfer decodeAluImmediate decodeAluRegister
  dsimp only
  have h5 : o.toNat ≤ 4 → o = 0 ∨ o = 1 ∨ o = 2 ∨ o = 3 ∨ o = 4 := by revert o; decide
  rcases BitVec.eq_zero_or_eq_one t with rfl | rfl
  · right; right
    by_cases ho : o.toNat ≤ 4
    · rcases BitVec.eq_zero_or_eq_one i with rfl | rfl <;> by_cases hb : b.toNat < 8 <;>
        rcases h5 ho with rfl | rfl | rfl | rfl | rfl <;> simp [Instr.wf, Instr.aluDest, registerInRange, hb]
    · right
      refine ⟨by simp, by simp, by simp [ho], ?_⟩
      rcases BitVec.eq_zero_or_eq_one i with rfl | rfl <;> simp <;> repeat' split
      all_goals simp_all
  · by_cases h1 : o = 0b0110
    · simp [h1]
    · by_cases h2 : o = 0b0101
      · simp [h2]
      · right; right; right
        refine ⟨by simpa using h1, by simpa using h2, by simp, ?_⟩
        simp only [if_true]
        split <;> simp_all

end Sys2Proof
end

