-- ==== Sys2Proof/Laws/Memory.lean ====
section
/-! SUPPORT. The laws of the memory list: what a read sees of a write, that every operation keeps the canonical form,
and what the bounds-checked accesses of the state do. -/

namespace Sys2Proof.Machine

/-- The rising half of the canonical form, seen from the head of the list. -/
theorem Memory.wf_cons {fill : Word} {cap k : Nat} {u : Word} {m : Memory} :
    Memory.wf fill cap ((k, u) :: m) ↔
      (∀ e ∈ m, k < e.1) ∧ (k < cap ∧ u ≠ fill) ∧ Memory.wf fill cap m := by
  constructor
  · rintro ⟨hp, hm⟩
    obtain ⟨h1, h2⟩ := List.pairwise_cons.mp hp
    exact ⟨fun e he => h1 e he, hm _ (List.mem_cons_self ..), h2, fun e he => hm e (List.mem_cons_of_mem _ he)⟩
  · rintro ⟨h1, h2, h3, h4⟩
    refine ⟨List.pairwise_cons.mpr ⟨fun e he => h1 e he, h3⟩, fun e he => ?_⟩
    rcases List.mem_cons.mp he with rfl | he
    · exact h2
    · exact h4 e he

theorem Memory.wf_nil (fill : Word) (cap : Nat) : Memory.wf fill cap [] := by simp [Memory.wf]

/-- An address below every listed one reads as the fill. -/
theorem Memory.read_of_all_above {fill : Word} {m : Memory} {a : Nat} (h : ∀ e ∈ m, a < e.1) :
    Memory.read fill m a = fill := by
  induction m with
  | nil => rfl
  | cons e m ih =>
    obtain ⟨k, u⟩ := e
    have hk : a < k := h (k, u) (List.mem_cons_self ..)
    have hne : k ≠ a := by omega
    simp only [Memory.read, if_neg hne]
    exact ih fun e he => h e (List.mem_cons_of_mem _ he)

/-- An entry in front, at an address not listed behind it, reads back; every other address reads as before. -/
theorem Memory.read_entry {fill : Word} {m : Memory} {a : Nat} {v : Word}
    (h : Memory.read fill m a = fill) (b : Nat) :
    Memory.read fill (Memory.entry fill a v m) b = if b = a then v else Memory.read fill m b := by
  unfold Memory.entry
  split
  · rename_i hv
    split
    · rename_i hb; rw [hb, h, hv]
    · rfl
  · simp only [Memory.read, eq_comm]

/-- Read after write: the written cell gives the written value, every other cell what it gave. -/
theorem Memory.read_write {fill : Word} {cap : Nat} {m : Memory} (hm : Memory.wf fill cap m) (a : Nat) (v : Word)
    (b : Nat) : Memory.read fill (Memory.write fill m a v) b = if b = a then v else Memory.read fill m b := by
  induction m with
  | nil => exact Memory.read_entry rfl b
  | cons e m ih =>
    obtain ⟨k, u⟩ := e
    obtain ⟨habove, -, hwf⟩ := Memory.wf_cons.mp hm
    simp only [Memory.write]
    split
    · rename_i hlt
      refine Memory.read_entry (Memory.read_of_all_above fun e he => ?_) b
      rcases List.mem_cons.mp he with rfl | he
      · exact hlt
      · exact Nat.lt_trans hlt (habove e he)
    · split
      · rename_i hak
        rw [Memory.read_entry (Memory.read_of_all_above fun e he => hak ▸ habove e he)]
        by_cases hb : b = a
        · simp [hb]
        · have : k ≠ b := by omega
          simp [hb, Memory.read, this]
      · rename_i hlt hak
        by_cases hkb : k = b
        · have : b ≠ a := by omega
          simp [Memory.read, hkb, this]
        · simp only [Memory.read, if_neg hkb]
          exact ih hwf

/-- An entry in front keeps the canonical form. -/
theorem Memory.entry_wf {fill : Word} {cap : Nat} {m : Memory} (hm : Memory.wf fill cap m) {a : Nat} (ha : a < cap)
    (habove : ∀ e ∈ m, a < e.1) (v : Word) : Memory.wf fill cap (Memory.entry fill a v m) := by
  unfold Memory.entry
  split
  · exact hm
  · rename_i hv
    exact Memory.wf_cons.mpr ⟨habove, ⟨ha, hv⟩, hm⟩

/-- A write lists no address but the written one and those listed before. -/
theorem Memory.mem_write {fill : Word} {m : Memory} {a : Nat} {v : Word} {e : Nat × Word}
    (he : e ∈ Memory.write fill m a v) : e = (a, v) ∨ e ∈ m := by
  induction m with
  | nil =>
    simp only [Memory.write, Memory.entry] at he
    split at he <;> simp_all
  | cons f m ih =>
    obtain ⟨k, u⟩ := f
    simp only [Memory.write, Memory.entry] at he
    split at he
    · split at he <;> simp_all
    · split at he
      · split at he
        · exact .inr (List.mem_cons_of_mem _ he)
        · rcases List.mem_cons.mp he with rfl | he
          · exact .inl rfl
          · exact .inr (List.mem_cons_of_mem _ he)
      · rcases List.mem_cons.mp he with rfl | he
        · exact .inr (List.mem_cons_self ..)
        · exact (ih he).imp id fun h => List.mem_cons_of_mem _ h

/-- A write below the capacity keeps the canonical form. -/
theorem Memory.write_wf {fill : Word} {cap : Nat} {m : Memory} (hm : Memory.wf fill cap m) {a : Nat} (ha : a < cap)
    (v : Word) : Memory.wf fill cap (Memory.write fill m a v) := by
  induction m with
  | nil => exact Memory.entry_wf (Memory.wf_nil fill cap) ha (by simp) v
  | cons e m ih =>
    obtain ⟨k, u⟩ := e
    obtain ⟨habove, hk, hwf⟩ := Memory.wf_cons.mp hm
    simp only [Memory.write]
    split
    · rename_i hlt
      refine Memory.entry_wf hm ha (fun e he => ?_) v
      rcases List.mem_cons.mp he with rfl | he
      · exact hlt
      · exact Nat.lt_trans hlt (habove e he)
    · split
      · rename_i hak
        exact Memory.entry_wf hwf ha (fun e he => hak ▸ habove e he) v
      · refine Memory.wf_cons.mpr ⟨fun e he => ?_, hk, ih hwf⟩
        rcases Memory.mem_write he with rfl | he
        · simp only; omega
        · exact habove e he

/-- A memory built from an image over the addresses of a rising list. -/
theorem Memory.foldr_entry (fill : Word) (cap : Nat) (init : Nat → Word) (l : List Nat)
    (hl : l.Pairwise (· < ·)) (hc : ∀ a ∈ l, a < cap) :
    Memory.wf fill cap (l.foldr (fun a m => Memory.entry fill a (init a) m) []) ∧
    (∀ e ∈ l.foldr (fun a m => Memory.entry fill a (init a) m) [], e.1 ∈ l) ∧
    ∀ b, Memory.read fill (l.foldr (fun a m => Memory.entry fill a (init a) m) []) b =
      if b ∈ l then init b else fill := by
  induction l with
  | nil => exact ⟨Memory.wf_nil fill cap, by simp, by simp [Memory.read]⟩
  | cons a l ih =>
    obtain ⟨hal, hl⟩ := List.pairwise_cons.mp hl
    obtain ⟨hwf, hmem, hread⟩ := ih hl fun b hb => hc b (List.mem_cons_of_mem _ hb)
    have habove : ∀ e ∈ l.foldr (fun a m => Memory.entry fill a (init a) m) [], a < e.1 :=
      fun e he => hal _ (hmem e he)
    simp only [List.foldr_cons]
    refine ⟨Memory.entry_wf hwf (hc a (List.mem_cons_self ..)) habove _, fun e he => ?_, fun b => ?_⟩
    · unfold Memory.entry at he
      split at he
      · exact List.mem_cons_of_mem _ (hmem e he)
      · rcases List.mem_cons.mp he with rfl | he
        · exact List.mem_cons_self ..
        · exact List.mem_cons_of_mem _ (hmem e he)
    · rw [Memory.read_entry (Memory.read_of_all_above habove), hread]
      by_cases hb : b = a <;> simp [hb]

/-- The memory of an image is canonical. -/
theorem Memory.ofImage_wf (fill : Word) (cap : Nat) (init : Nat → Word) :
    Memory.wf fill cap (Memory.ofImage fill cap init) :=
  (Memory.foldr_entry fill cap init _ List.pairwise_lt_range fun _ => List.mem_range.mp).1

/-- The memory of an image reads back the image. -/
theorem Memory.read_ofImage (fill : Word) (cap : Nat) (init : Nat → Word) {a : Nat} (ha : a < cap) :
    Memory.read fill (Memory.ofImage fill cap init) a = init a := by
  have h := (Memory.foldr_entry fill cap init _ List.pairwise_lt_range fun _ => List.mem_range.mp).2.2 a
  simpa [Memory.ofImage, ha] using h

/-! ### The bounds-checked accesses of the state -/

/-- A read answers exactly below the capacity. -/
theorem State.readCell_of_lt {s : State} {a : Nat} (h : a < s.cfg.memWords) :
    s.readCell a = some (Memory.read s.cfg.sentinel s.mem a) := if_pos h

theorem State.readCell_of_le {s : State} {a : Nat} (h : s.cfg.memWords ≤ a) : s.readCell a = none :=
  if_neg (by omega)

/-- A write answers exactly below the capacity, and changes memory alone. -/
theorem State.writeCell_of_lt {s : State} {a : Nat} (h : a < s.cfg.memWords) (v : Word) :
    s.writeCell a v = some { s with mem := Memory.write s.cfg.sentinel s.mem a v } := if_pos h

theorem State.writeCell_of_le {s : State} {a : Nat} (h : s.cfg.memWords ≤ a) (v : Word) : s.writeCell a v = none :=
  if_neg (by omega)

/-- What a read sees of a write inside the capacity. -/
theorem State.readCell_write {s : State} (hm : Memory.wf s.cfg.sentinel s.cfg.memWords s.mem) {a : Nat}
    (ha : a < s.cfg.memWords) (v : Word) (b : Nat) :
    State.readCell { s with mem := Memory.write s.cfg.sentinel s.mem a v } b =
      if b = a then some v else s.readCell b := by
  simp only [State.readCell, Memory.read_write hm]
  by_cases hb : b = a
  · simp [hb, ha]
  · simp [hb]

/-- Everything a write that answers can do: it is in bounds, and the state changes in `mem` alone. -/
theorem State.writeCell_cases {s t : State} {a : Nat} {v : Word} (h : s.writeCell a v = some t) :
    a < s.cfg.memWords ∧ t = { s with mem := Memory.write s.cfg.sentinel s.mem a v } := by
  unfold State.writeCell at h
  split at h
  · rename_i ha; exact ⟨ha, (Option.some.inj h).symm⟩
  · cases h

end Sys2Proof.Machine
end

