-- ==== Sys2Proof/Laws/State.lean ====
section
/-! SUPPORT. One lemma per field per update of the state, so that no later proof unfolds a record update; and what the
register reads see of each update. -/

namespace Sys2Proof.Machine

variable (s : State)

/-! ### `State.setReg` -/

@[simp] theorem State.setReg_x (r : RegIdx) (v : Word) : (s.setReg r v).x = s.x.set r.toNat v r.isLt := rfl
@[simp] theorem State.setReg_pc (r : RegIdx) (v : Word) : (s.setReg r v).pc = s.pc := rfl
@[simp] theorem State.setReg_mem (r : RegIdx) (v : Word) : (s.setReg r v).mem = s.mem := rfl
@[simp] theorem State.setReg_runState (r : RegIdx) (v : Word) : (s.setReg r v).runState = s.runState := rfl
@[simp] theorem State.setReg_faultKind (r : RegIdx) (v : Word) : (s.setReg r v).faultKind = s.faultKind := rfl
@[simp] theorem State.setReg_faultIndex (r : RegIdx) (v : Word) : (s.setReg r v).faultIndex = s.faultIndex := rfl
@[simp] theorem State.setReg_cfg (r : RegIdx) (v : Word) : (s.setReg r v).cfg = s.cfg := rfl

/-! ### `State.incrementPc` -/

@[simp] theorem State.incrementPc_x : (s.incrementPc).x = s.x := rfl
@[simp] theorem State.incrementPc_pc : (s.incrementPc).pc = s.pc + 1 := rfl
@[simp] theorem State.incrementPc_mem : (s.incrementPc).mem = s.mem := rfl
@[simp] theorem State.incrementPc_runState : (s.incrementPc).runState = s.runState := rfl
@[simp] theorem State.incrementPc_faultKind : (s.incrementPc).faultKind = s.faultKind := rfl
@[simp] theorem State.incrementPc_faultIndex : (s.incrementPc).faultIndex = s.faultIndex := rfl
@[simp] theorem State.incrementPc_cfg : (s.incrementPc).cfg = s.cfg := rfl

/-! ### `State.halt` -/

@[simp] theorem State.halt_x : (s.halt).x = s.x := rfl
@[simp] theorem State.halt_pc : (s.halt).pc = s.pc := rfl
@[simp] theorem State.halt_mem : (s.halt).mem = s.mem := rfl
@[simp] theorem State.halt_runState : (s.halt).runState = .halted := rfl
@[simp] theorem State.halt_faultKind : (s.halt).faultKind = s.faultKind := rfl
@[simp] theorem State.halt_faultIndex : (s.halt).faultIndex = s.faultIndex := rfl
@[simp] theorem State.halt_cfg : (s.halt).cfg = s.cfg := rfl

/-! ### `State.takeFault` -/

@[simp] theorem State.takeFault_x (kind : FaultKind) : (s.takeFault kind).x = s.x := rfl
@[simp] theorem State.takeFault_pc (kind : FaultKind) : (s.takeFault kind).pc = s.pc := rfl
@[simp] theorem State.takeFault_mem (kind : FaultKind) : (s.takeFault kind).mem = s.mem := rfl
@[simp] theorem State.takeFault_runState (kind : FaultKind) : (s.takeFault kind).runState = .faulted := rfl
@[simp] theorem State.takeFault_faultKind (kind : FaultKind) : (s.takeFault kind).faultKind = kind := rfl
@[simp] theorem State.takeFault_faultIndex (kind : FaultKind) : (s.takeFault kind).faultIndex = s.instrIndex := rfl
@[simp] theorem State.takeFault_cfg (kind : FaultKind) : (s.takeFault kind).cfg = s.cfg := rfl

/-! ### `State.takeIllegal` -/

@[simp] theorem State.takeIllegal_x (r : Illegal) : (s.takeIllegal r).x = s.x := rfl
@[simp] theorem State.takeIllegal_pc (r : Illegal) : (s.takeIllegal r).pc = s.pc := rfl
@[simp] theorem State.takeIllegal_mem (r : Illegal) : (s.takeIllegal r).mem = s.mem := rfl
@[simp] theorem State.takeIllegal_runState (r : Illegal) : (s.takeIllegal r).runState = .faulted := rfl
@[simp] theorem State.takeIllegal_faultKind (r : Illegal) : (s.takeIllegal r).faultKind = illegalFaultKind s.cfg r := rfl
@[simp] theorem State.takeIllegal_faultIndex (r : Illegal) : (s.takeIllegal r).faultIndex = s.instrIndex := rfl
@[simp] theorem State.takeIllegal_cfg (r : Illegal) : (s.takeIllegal r).cfg = s.cfg := rfl

/-! ### `State.coreReset` -/

@[simp] theorem State.coreReset_x : (s.coreReset).x = Vector.replicate 8 0#16 := rfl
@[simp] theorem State.coreReset_pc : (s.coreReset).pc = 0 := rfl
@[simp] theorem State.coreReset_mem : (s.coreReset).mem = s.mem := rfl
@[simp] theorem State.coreReset_runState : (s.coreReset).runState = .running := rfl
@[simp] theorem State.coreReset_faultKind : (s.coreReset).faultKind = .none := rfl
@[simp] theorem State.coreReset_faultIndex : (s.coreReset).faultIndex = 0 := rfl
@[simp] theorem State.coreReset_cfg : (s.coreReset).cfg = s.cfg := rfl

/-! ### The parts of a started run -/

variable (c : Config) (init : Nat → Word)

@[simp] theorem State.startWith_x : (State.startWith c init).x = Vector.replicate 8 0#16 := rfl
@[simp] theorem State.startWith_pc : (State.startWith c init).pc = 0 := rfl
@[simp] theorem State.startWith_mem :
    (State.startWith c init).mem = Memory.ofImage c.sentinel c.memWords init := rfl
@[simp] theorem State.startWith_runState : (State.startWith c init).runState = .running := rfl
@[simp] theorem State.startWith_faultKind : (State.startWith c init).faultKind = .none := rfl
@[simp] theorem State.startWith_faultIndex : (State.startWith c init).faultIndex = 0 := rfl
@[simp] theorem State.startWith_cfg : (State.startWith c init).cfg = c := rfl

/-! ### Register reads -/

@[simp] theorem State.reg_incrementPc (r : RegIdx) : s.incrementPc.reg r = s.reg r := rfl
@[simp] theorem State.reg_halt (r : RegIdx) : s.halt.reg r = s.reg r := rfl
@[simp] theorem State.reg_takeFault (k : FaultKind) (r : RegIdx) : (s.takeFault k).reg r = s.reg r := rfl
@[simp] theorem State.reg_takeIllegal (i : Illegal) (r : RegIdx) : (s.takeIllegal i).reg r = s.reg r := rfl

@[simp] theorem State.reg_setReg_same (r : RegIdx) (v : Word) : (s.setReg r v).reg r = v := by
  simp [State.reg]

@[simp] theorem State.reg_setReg_other {r q : RegIdx} (h : q ≠ r) (v : Word) :
    (s.setReg r v).reg q = s.reg q := by
  have hn : r.toNat ≠ q.toNat := fun e => h (BitVec.eq_of_toNat_eq e.symm)
  simp [State.reg, hn]

@[simp] theorem State.reg_coreReset (r : RegIdx) : s.coreReset.reg r = 0#16 := by
  simp [State.reg]

/-! ### Memory reads -/

@[simp] theorem State.readCell_setReg (r : RegIdx) (v : Word) (a : Nat) :
    (s.setReg r v).readCell a = s.readCell a := rfl
@[simp] theorem State.readCell_incrementPc (a : Nat) : s.incrementPc.readCell a = s.readCell a := rfl
@[simp] theorem State.readCell_halt (a : Nat) : s.halt.readCell a = s.readCell a := rfl
@[simp] theorem State.readCell_takeFault (k : FaultKind) (a : Nat) : (s.takeFault k).readCell a = s.readCell a := rfl
@[simp] theorem State.readCell_takeIllegal (i : Illegal) (a : Nat) :
    (s.takeIllegal i).readCell a = s.readCell a := rfl
@[simp] theorem State.readCell_coreReset (a : Nat) : s.coreReset.readCell a = s.readCell a := rfl

end Sys2Proof.Machine
end

