-- ==== Sys2Proof/Laws/Exec.lean ====
section
/-! SUPPORT. What each shared operation of the meanings can do, said once, and the same for `exec`. -/

namespace Sys2Proof.Machine

/-- An in-range first operand is a register of the state. -/
theorem State.firstRegister_of_lt (s : State) {a : Nibble} (h : a.toNat < 8) :
    s.firstRegister a = some (s.reg (a.setWidth 3)) := by
  simp [State.firstRegister, registerInRange, h]

theorem State.firstRegister_of_le (s : State) {a : Nibble} (h : 8 ≤ a.toNat) : s.firstRegister a = none := by
  simp [State.firstRegister, registerInRange, Nat.not_lt.mpr h]

/-- A register form in range writes its result to its destination. -/
theorem aluRegister_of_lt (f : Word → Word → Word) (d : RegIdx) {a : Nibble} (b : RegIdx) (s : State)
    (h : a.toNat < 8) : aluRegister f d a b s = .next (s.setReg d (f (s.reg (a.setWidth 3)) (s.reg b))) := by
  simp [aluRegister, s.firstRegister_of_lt h]

/-- A register form out of range takes its fault. -/
theorem aluRegister_of_le (f : Word → Word → Word) (d : RegIdx) {a : Nibble} (b : RegIdx) (s : State)
    (h : 8 ≤ a.toNat) : aluRegister f d a b s = .next (s.takeFault .registerIndexOutOfBounds) := by
  simp [aluRegister, s.firstRegister_of_le h]

theorem loadCell_of_lt (d : RegIdx) {addr : Word} {s : State} (h : addr.toNat < s.cfg.memWords) :
    loadCell d addr s = .next (s.setReg d (Memory.read s.cfg.sentinel s.mem addr.toNat)) := by
  simp [loadCell, State.readCell_of_lt h]

theorem loadCell_of_le (d : RegIdx) {addr : Word} {s : State} (h : s.cfg.memWords ≤ addr.toNat) :
    loadCell d addr s = .next (s.takeFault .outOfBoundsAddress) := by
  simp [loadCell, State.readCell_of_le h]

theorem storeCell_of_lt (r : RegIdx) {addr : Word} {s : State} (h : addr.toNat < s.cfg.memWords) :
    storeCell r addr s =
      .next { s with mem := Memory.write s.cfg.sentinel s.mem addr.toNat (s.reg r) } := by
  simp [storeCell, State.writeCell_of_lt h]

theorem storeCell_of_le (r : RegIdx) {addr : Word} {s : State} (h : s.cfg.memWords ≤ addr.toNat) :
    storeCell r addr s = .next (s.takeFault .outOfBoundsAddress) := by
  simp [storeCell, State.writeCell_of_le h]

/-- A 4-bit field keeps its value when it is zero-extended. -/
@[simp] theorem toNat_effectiveAddress (addr : Nibble) : (effectiveAddress addr).toNat = addr.toNat := by
  have := addr.isLt
  simp [effectiveAddress, zext16]
  omega

@[simp] theorem toNat_immediateOperand (imm : Nibble) : (immediateOperand imm).toNat = imm.toNat := by
  have := imm.isLt
  simp [immediateOperand, zext16]
  omega

/-- The ways the instruction `i` can change the state: HALT halts; any other writes one register, or, a STORE, one
cell inside the capacity; or takes a fault, which needs a first register out of range or a memory of fewer than 16
words. -/
inductive Effect (i : Instr) (s : State) : State → Prop where
  | halt (hi : i = .halt) : Effect i s s.halt
  | writeReg (r : RegIdx) (v : Word) : Effect i s (s.setReg r v)
  | writeMem (iBit : BitVec 1) (r : RegIdx) (addr : Nibble) (op3 : BitVec 3) (hi : i = .store iBit r addr op3)
      (ha : addr.toNat < s.cfg.memWords) :
      Effect i s { s with mem := Memory.write s.cfg.sentinel s.mem addr.toNat (s.reg r) }
  | fault (kind : FaultKind) (hk : kind ≠ .none) (hf : i.wf = false ∨ s.cfg.memWords < 16) :
      Effect i s (s.takeFault kind)

theorem aluRegister_effect {i : Instr} {a : Nibble} (hi : i.wf = registerInRange a) (f : Word → Word → Word)
    (d : RegIdx) (b : RegIdx) (s : State) : ∃ t, aluRegister f d a b s = .next t ∧ Effect i s t := by
  by_cases h : a.toNat < 8
  · exact ⟨_, aluRegister_of_lt f d b s h, .writeReg _ _⟩
  · exact ⟨_, aluRegister_of_le f d b s (by omega), .fault _ (by decide) (.inl (by simp [hi, registerInRange, h]))⟩

theorem aluImmediate_effect (i : Instr) (f : Word → Word → Word) (d : RegIdx) (imm : Nibble) (b : RegIdx)
    (s : State) : ∃ t, aluImmediate f d imm b s = .next t ∧ Effect i s t := ⟨_, rfl, .writeReg _ _⟩

theorem execLoad_effect (i : Instr) (d : RegIdx) (addr : Nibble) (s : State) :
    ∃ t, execLoad d addr s = .next t ∧ Effect i s t := by
  have h4 := addr.isLt
  by_cases h : (effectiveAddress addr).toNat < s.cfg.memWords
  · exact ⟨_, loadCell_of_lt d h, .writeReg _ _⟩
  · rw [toNat_effectiveAddress] at h
    exact ⟨_, loadCell_of_le d (by simpa using h), .fault _ (by decide) (.inr (by omega))⟩

theorem execStore_effect (iBit : BitVec 1) (r : RegIdx) (addr : Nibble) (op3 : BitVec 3) (s : State) :
    ∃ t, execStore r addr s = .next t ∧ Effect (.store iBit r addr op3) s t := by
  have h4 := addr.isLt
  by_cases h : addr.toNat < s.cfg.memWords
  · refine ⟨_, storeCell_of_lt r (by simpa using h), ?_⟩
    rw [toNat_effectiveAddress]
    exact .writeMem iBit r addr op3 rfl h
  · exact ⟨_, storeCell_of_le r (by simpa using h), .fault _ (by decide) (.inr (by omega))⟩

/-- Everything an instruction can do: it answers a next state, by one of the four effects. -/
theorem exec_effect (i : Instr) (s : State) : ∃ t, exec i s = .next t ∧ Effect i s t := by
  cases i with
  | halt => exact ⟨_, rfl, .halt rfl⟩
  | load _ d addr _ => exact execLoad_effect _ d addr s
  | store iBit r addr op3 => exact execStore_effect iBit r addr op3 s
  | add d a b => exact aluRegister_effect rfl aluAdd d b s
  | addi d imm b => exact aluImmediate_effect _ aluAdd d imm b s
  | sub d a b => exact aluRegister_effect rfl aluSub d b s
  | subi d imm b => exact aluImmediate_effect _ aluSub d imm b s
  | and d a b => exact aluRegister_effect rfl aluAnd d b s
  | andi d imm b => exact aluImmediate_effect _ aluAnd d imm b s
  | or d a b => exact aluRegister_effect rfl aluOr d b s
  | ori d imm b => exact aluImmediate_effect _ aluOr d imm b s
  | xor d a b => exact aluRegister_effect rfl aluXor d b s
  | xori d imm b => exact aluImmediate_effect _ aluXor d imm b s

/-- A well-formed ALU instruction writes its destination register and nothing else. -/
theorem exec_of_aluDest {i : Instr} {d : RegIdx} (hd : i.aluDest = some d) (hw : i.wf = true) (s : State) :
    ∃ v, exec i s = .next (s.setReg d v) := by
  cases i <;> simp only [Instr.aluDest, Instr.wf, registerInRange, decide_eq_true_eq, reduceCtorEq,
    Option.some.injEq] at hd hw <;> subst hd <;> first | exact ⟨_, rfl⟩ | exact ⟨_, aluRegister_of_lt _ _ _ s hw⟩

end Sys2Proof.Machine
end

