-- ==== Sys2Proof/Laws/PerInstr.lean ====
section
/-! SUPPORT. Statements over every instruction, one lemma per constructor. Family `RowFields`: a well-formed
instruction's fixed fields are those of its row (30_encoding.md R64, R66), read from its encoded word. -/

namespace Sys2Proof.Laws

/-- The row's fixed fields: `T`, `opcode`, and for the ALU rows `I` (`none` where the row ignores it; 30_encoding.md
R64, R66). HALT's row fixes the whole word and is not described by fields. -/
def rowFixed : Instr → Option (BitVec 1 × BitVec 4 × Option (BitVec 1))
  | .halt => none
  | .load _ _ _ _ => some (1, 0b0101, none)
  | .store _ _ _ _ => some (1, 0b0110, none)
  | .add _ _ _ => some (0, 0b0000, some 0)
  | .addi _ _ _ => some (0, 0b0000, some 1)
  | .sub _ _ _ => some (0, 0b0001, some 0)
  | .subi _ _ _ => some (0, 0b0001, some 1)
  | .and _ _ _ => some (0, 0b0010, some 0)
  | .andi _ _ _ => some (0, 0b0010, some 1)
  | .or _ _ _ => some (0, 0b0011, some 0)
  | .ori _ _ _ => some (0, 0b0011, some 1)
  | .xor _ _ _ => some (0, 0b0100, some 0)
  | .xori _ _ _ => some (0, 0b0100, some 1)

/-- The fields of a word agree with a row. -/
def matchesRow (f : Fields) : BitVec 1 × BitVec 4 × Option (BitVec 1) → Prop
  | (t, opcode, i) => f.t = t ∧ f.opcode = opcode ∧ ∀ b, i = some b → f.i = b

/-- The encoded word of `i`, extracted by the decoder, has the fixed fields of `i`'s row. -/
def RowFields.Statement (i : Instr) : Prop :=
  ∀ (c : Config) (row : BitVec 1 × BitVec 4 × Option (BitVec 1)), i.wf = true → rowFixed i = some row →
    matchesRow (Sys2Proof.fields (encode c i)) row

/-- One proof for the twelve rows: extraction after packing. -/
theorem rowFields_of_fields {i : Instr} (hi : i ≠ .halt) {t : BitVec 1} {o : BitVec 4} {b : Option (BitVec 1)}
    (hrow : rowFixed i = some (t, o, b)) (hm : matchesRow i.fields (t, o, b)) : RowFields.Statement i := by
  intro c row _ h
  rw [hrow] at h
  cases h
  rw [encode_of_ne_halt c hi, fields_toWord]
  exact hm

theorem RowFields.halt : RowFields.Statement .halt := by
  intro c row _ h
  cases h

theorem RowFields.load (iBit : BitVec 1) (d : RegIdx) (addr : Nibble) (op3 : BitVec 3) :
    RowFields.Statement (.load iBit d addr op3) :=
  rowFields_of_fields (by simp) rfl ⟨rfl, rfl, by simp⟩

theorem RowFields.store (iBit : BitVec 1) (s : RegIdx) (addr : Nibble) (op3 : BitVec 3) :
    RowFields.Statement (.store iBit s addr op3) :=
  rowFields_of_fields (by simp) rfl ⟨rfl, rfl, by simp⟩

theorem RowFields.add (d : RegIdx) (a : Nibble) (b : RegIdx) : RowFields.Statement (.add d a b) :=
  rowFields_of_fields (by simp) rfl ⟨rfl, rfl, by rintro _ ⟨⟩; rfl⟩

theorem RowFields.addi (d : RegIdx) (imm : Nibble) (b : RegIdx) : RowFields.Statement (.addi d imm b) :=
  rowFields_of_fields (by simp) rfl ⟨rfl, rfl, by rintro _ ⟨⟩; rfl⟩

theorem RowFields.sub (d : RegIdx) (a : Nibble) (b : RegIdx) : RowFields.Statement (.sub d a b) :=
  rowFields_of_fields (by simp) rfl ⟨rfl, rfl, by rintro _ ⟨⟩; rfl⟩

theorem RowFields.subi (d : RegIdx) (imm : Nibble) (b : RegIdx) : RowFields.Statement (.subi d imm b) :=
  rowFields_of_fields (by simp) rfl ⟨rfl, rfl, by rintro _ ⟨⟩; rfl⟩

theorem RowFields.and (d : RegIdx) (a : Nibble) (b : RegIdx) : RowFields.Statement (.and d a b) :=
  rowFields_of_fields (by simp) rfl ⟨rfl, rfl, by rintro _ ⟨⟩; rfl⟩

theorem RowFields.andi (d : RegIdx) (imm : Nibble) (b : RegIdx) : RowFields.Statement (.andi d imm b) :=
  rowFields_of_fields (by simp) rfl ⟨rfl, rfl, by rintro _ ⟨⟩; rfl⟩

theorem RowFields.or (d : RegIdx) (a : Nibble) (b : RegIdx) : RowFields.Statement (.or d a b) :=
  rowFields_of_fields (by simp) rfl ⟨rfl, rfl, by rintro _ ⟨⟩; rfl⟩

theorem RowFields.ori (d : RegIdx) (imm : Nibble) (b : RegIdx) : RowFields.Statement (.ori d imm b) :=
  rowFields_of_fields (by simp) rfl ⟨rfl, rfl, by rintro _ ⟨⟩; rfl⟩

theorem RowFields.xor (d : RegIdx) (a : Nibble) (b : RegIdx) : RowFields.Statement (.xor d a b) :=
  rowFields_of_fields (by simp) rfl ⟨rfl, rfl, by rintro _ ⟨⟩; rfl⟩

theorem RowFields.xori (d : RegIdx) (imm : Nibble) (b : RegIdx) : RowFields.Statement (.xori d imm b) :=
  rowFields_of_fields (by simp) rfl ⟨rfl, rfl, by rintro _ ⟨⟩; rfl⟩

end Sys2Proof.Laws
end

