-- ==== Sys2Proof/Laws/Step.lean ====
section
/-! SUPPORT. What the fetch and one step can do, said once. -/

namespace Sys2Proof.Machine

theorem State.fetch_atEnd {s : State} (h : s.cfg.memWords ≤ s.pc) : s.fetch = .atEnd := by
  simp [State.fetch, State.readCell_of_le h]

theorem State.fetch_word {s : State} {w : Word} (h : s.readCell s.pc = some w) :
    s.fetch = if w = s.cfg.sentinel then .sentinel else .word w := by
  simp [State.fetch, h]

theorem step_running {s : State} (h : s.runState = .running) : step s = stepRunning s := by
  simp [step, h]

/-- Everything a step of a RUNNING machine can do: the halt, with the condition of R116; or, of a word that is not the
sentinel, the decoded instruction after the increment; or the fault of an illegal word after the increment. -/
theorem step_cases {s : State} (h : s.runState = .running) :
    (step s = .next s.halt ∧ (s.cfg.memWords ≤ s.pc ∨ s.readCell s.pc = some s.cfg.sentinel)) ∨
    ∃ w, s.pc < s.cfg.memWords ∧ s.readCell s.pc = some w ∧ w ≠ s.cfg.sentinel ∧
      ((∃ i, decode s.cfg w = .instr i ∧ step s = exec i s.incrementPc) ∨
       ∃ r, decode s.cfg w = .illegal r ∧ step s = .next (s.incrementPc.takeIllegal r)) := by
  rw [step_running h]
  by_cases hp : s.pc < s.cfg.memWords
  · have hc := State.readCell_of_lt hp
    by_cases hw : Memory.read s.cfg.sentinel s.mem s.pc = s.cfg.sentinel
    · left
      refine ⟨?_, .inr (by rw [hc, hw])⟩
      simp only [stepRunning, State.fetch_word hc, if_pos hw]
      rfl
    · right
      refine ⟨_, hp, hc, hw, ?_⟩
      simp only [stepRunning, State.fetch_word hc, if_neg hw]
      cases hd : decode s.cfg (Memory.read s.cfg.sentinel s.mem s.pc) with
      | instr i => exact .inl ⟨i, rfl, rfl⟩
      | illegal r => exact .inr ⟨r, rfl, rfl⟩
  · left
    refine ⟨?_, .inl (by omega)⟩
    simp [stepRunning, State.fetch_atEnd (Nat.le_of_not_lt hp)]

/-- The instruction a step decodes from a word that is not the sentinel is not HALT. -/
theorem decode_ne_halt {c : Config} {w : Word} (h : w ≠ c.sentinel) : decode c w ≠ .instr .halt := by
  rw [decode_of_ne_sentinel h]
  unfold decodeFields decodeDataTransfer decodeAluImmediate decodeAluRegister
  intro hd
  repeat' split at hd
  all_goals cases hd

/-- What one step of a RUNNING machine does, with the instruction's effect spelled out: the inversion the invariants are
derived from. -/
inductive StepEffect (s : State) : State → Prop where
  | halt (h : s.cfg.memWords ≤ s.pc ∨ s.readCell s.pc = some s.cfg.sentinel) : StepEffect s s.halt
  | instr (w : Word) (i : Instr) (t : State) (hp : s.pc < s.cfg.memWords) (hw : s.readCell s.pc = some w)
      (hne : w ≠ s.cfg.sentinel) (hd : decode s.cfg w = .instr i) (hi : i ≠ .halt)
      (hx : exec i s.incrementPc = .next t) (he : Effect i s.incrementPc t) : StepEffect s t
  | illegal (w : Word) (r : Illegal) (hp : s.pc < s.cfg.memWords) (hw : s.readCell s.pc = some w)
      (hne : w ≠ s.cfg.sentinel) (hd : decode s.cfg w = .illegal r) : StepEffect s (s.incrementPc.takeIllegal r)

theorem step_stepEffect {s : State} (hr : s.runState = .running) : ∃ t, step s = .next t ∧ StepEffect s t := by
  rcases step_cases hr with ⟨h1, h2⟩ | ⟨w, hp, hw, hne, ⟨i, hd, he⟩ | ⟨r, hd, he⟩⟩
  · exact ⟨_, h1, .halt h2⟩
  · obtain ⟨u, hu, heff⟩ := exec_effect i s.incrementPc
    exact ⟨u, he.trans hu, .instr w i u hp hw hne hd (fun h => decode_ne_halt hne (h ▸ hd)) hu heff⟩
  · exact ⟨_, he, .illegal w r hp hw hne hd⟩

/-- If a RUNNING machine steps to `t`, then by one of these effects. -/
theorem stepEffect_of_step {s t : State} (hr : s.runState = .running) (h : step s = .next t) : StepEffect s t := by
  obtain ⟨u, hu, he⟩ := step_stepEffect hr
  rw [hu] at h
  cases h
  exact he

/-- A step that answers a next state started RUNNING. -/
theorem running_of_step {s t : State} (h : step s = .next t) : s.runState = .running := by
  unfold step at h
  split at h
  · assumption
  · cases h
  · cases h

end Sys2Proof.Machine
end

