-- ==== Sys2Proof/Laws/Run.lean ====
section
/-! SUPPORT. Runs of the core: one step at a time, and the induction over a run packaged once. -/

namespace Sys2Proof.Machine

theorem runsTo_zero {s t : State} : RunsTo 0 s t ↔ s = t :=
  ⟨fun h => by cases h; rfl, fun h => by subst h; rfl⟩

/-- A run of one step more is a step and then a run. -/
theorem runsTo_succ {k : Nat} {s t : State} :
    RunsTo (k + 1) s t ↔ ∃ u, step s = .next u ∧ RunsTo k u t := by
  cases h : step s with
  | next u =>
    have e : Sys2Proof.core.step s = .next u := h
    constructor
    · intro hr
      simp only [RunsTo, Host.Core.run, e] at hr
      exact ⟨u, rfl, hr⟩
    · rintro ⟨v, hv, hr⟩
      cases hv
      simp only [RunsTo, Host.Core.run, e]
      exact hr
  | fault r =>
    have e : Sys2Proof.core.step s = .fault r := h
    simp [RunsTo, Host.Core.run, e]
  | refused r =>
    have e : Sys2Proof.core.step s = .refused r := h
    simp [RunsTo, Host.Core.run, e]

/-- What every step keeps, every run keeps. -/
theorem runsTo_keeps {P : State → Prop} (hstep : ∀ s t, P s → step s = .next t → P t) {k : Nat} {s t : State}
    (hs : P s) (h : RunsTo k s t) : P t := by
  induction k generalizing s with
  | zero => exact runsTo_zero.mp h ▸ hs
  | succ k ih =>
    obtain ⟨u, hu, hr⟩ := runsTo_succ.mp h
    exact ih (hstep s u hs hu) hr

end Sys2Proof.Machine
end

