-- ==== Sys2Proof/Machine/Flags.lean ====
section
/-! DEFINITION. There are no flag computations to define: the machine has no status flags, condition codes or
predicates, and no operation produces a carry, borrow, overflow, zero or sign indication (10_state.md R30; 41_alu.md
R92, R103). "A model must not add a flags register" (R30), so this file defines nothing. -/
end

