-- ==== Sys2Proof/Tests/Slice0.lean ====
section
/-! SUPPORT. Small tests. Expected results are the words, vectors and examples of spec/95_test_vectors.md and of the
instruction rules, or are worked out by hand from a rule; none comes from the model. The second half gives, for each
statement of Certificates/Slice0 that has hypotheses, concrete data that meets them together. -/

namespace Sys2Proof.Tests

open Sys2Proof Sys2Proof.Machine

/-- The reset state at parameters `c` with some cells and registers set. -/
def boot (c : Config) (cells : List (Nat × Word)) (regs : List (RegIdx × Word)) : State :=
  let s : State := { State.reset with cfg := c, mem := cells.foldl (fun m e => Memory.write c.sentinel m e.1 e.2) [] }
  regs.foldl (fun s e => s.setReg e.1 e.2) s

/-- The same at the document's parameters. -/
def doc (cells : List (Nat × Word)) (regs : List (RegIdx × Word)) : State := boot Config.document cells regs

/-- The state after one step, if the step answers one. -/
def after (s : State) : Option State :=
  match step s with
  | .next t => some t
  | .fault _ => none
  | .refused _ => none

/-- One register and `pc` after one step. -/
def regAfter (s : State) (r : RegIdx) : Option (Word × Nat × RunState) :=
  (after s).map fun t => (t.reg r, t.pc, t.runState)

/-- The fault record and `pc` after one step. -/
def recordAfter (s : State) : Option (RunState × FaultKind × Nat × Nat) :=
  (after s).map fun t => (t.runState, t.faultKind, t.faultIndex, t.pc)

/-! ### Well-formedness: an ill-formed term for the one check, in each form it applies to (30_encoding.md R64) -/

theorem test_wf_refuses_add_index_8 : (Instr.add 2 8 1).wf = false := by decide
theorem test_wf_refuses_sub_index_9 : (Instr.sub 2 9 1).wf = false := by decide
theorem test_wf_refuses_and_index_12 : (Instr.and 0 12 0).wf = false := by decide
theorem test_wf_refuses_or_index_14 : (Instr.or 0 14 0).wf = false := by decide
theorem test_wf_refuses_xor_index_15 : (Instr.xor 7 15 7).wf = false := by decide
theorem test_wf_accepts_index_7_and_immediate_15 : (Instr.add 2 7 1).wf = true ∧ (Instr.addi 2 15 1).wf = true := by
  decide

/-! ### Decoding: each word written out as `T opcode I operand1 operand2 operand3` (30_encoding.md R61, R66) -/

theorem test_decode_halt : decode Config.document 0b1_1111_1_111_1111_111#16 = .instr .halt := by decide
theorem test_decode_load : decode Config.document 0b1_0101_0_011_1111_000#16 = .instr (.load 0 3 15 0) := by decide
theorem test_decode_load_ignored_bits :
    decode Config.document 0b1_0101_1_111_1111_111#16 = .instr (.load 1 7 15 7) := by decide
theorem test_decode_store : decode Config.document 0b1_0110_0_010_1100_000#16 = .instr (.store 0 2 12 0) := by decide
theorem test_decode_add : decode Config.document 0b0_0000_0_011_0100_101#16 = .instr (.add 3 4 5) := by decide
theorem test_decode_addi : decode Config.document 0b0_0000_1_010_0101_001#16 = .instr (.addi 2 5 1) := by decide
theorem test_decode_sub : decode Config.document 0b0_0001_0_011_0001_010#16 = .instr (.sub 3 1 2) := by decide
theorem test_decode_subi : decode Config.document 0b0_0001_1_010_0011_001#16 = .instr (.subi 2 3 1) := by decide
theorem test_decode_and : decode Config.document 0b0_0010_0_011_0001_010#16 = .instr (.and 3 1 2) := by decide
theorem test_decode_andi : decode Config.document 0b0_0010_1_100_1111_011#16 = .instr (.andi 4 15 3) := by decide
theorem test_decode_or : decode Config.document 0b0_0011_0_101_0100_001#16 = .instr (.or 5 4 1) := by decide
theorem test_decode_ori : decode Config.document 0b0_0011_1_001_1000_010#16 = .instr (.ori 1 8 2) := by decide
theorem test_decode_xor : decode Config.document 0b0_0100_0_011_0010_001#16 = .instr (.xor 3 2 1) := by decide
theorem test_decode_xori : decode Config.document 0b0_0100_1_111_1111_111#16 = .instr (.xori 7 15 7) := by decide

/-- The words of 95_test_vectors.md F1 to F7 and X1 to X4, refused by class. -/
theorem test_decode_illegal :
    [0x0141#16, 0x2078, 0x4840].map (decode Config.document) = List.replicate 3 (.illegal .registerIndex) ∧
    [0x2800#16, 0x3909, 0x7FFF, 0x4C40].map (decode Config.document) = List.replicate 4 (.illegal .aluOpcode) ∧
    [0x8141#16, 0xA000, 0xB800, 0xFFFE].map (decode Config.document) =
      [.illegal (.dataTransferOpcode 8), .illegal (.dataTransferOpcode 0), .illegal (.dataTransferOpcode 0),
       .illegal (.dataTransferOpcode 15)] := by decide

/-- The numbering of spec/opcode_table.json, and that only the first 16 bits are a word. -/
theorem test_decodeTableWord : decodeTableWord 16 0x0529 = some (.addi 2 5 1) ∧ decodeTableWord 16 0xFFFF = some .halt ∧
    decodeTableWord 16 0x0141 = none ∧ decodeTableWord 17 0x0529 = none := by decide

/-- The encoding of 30_encoding.md R63's example, and of the disassembled LOAD 0xAFFF. -/
theorem test_encode : encode Config.document (.addi 2 5 1) = 0x0529#16 ∧
    encode Config.document (.load 1 7 15 7) = 0xAFFF#16 ∧ encode Config.document .halt = 0xFFFF#16 := by decide

/-! ### One step: vectors of 95_test_vectors.md, by their names there -/

theorem test_L1_load : regAfter (doc [(0, 0xA9F8), (15, 0x1234)] []) 3 = some (0x1234, 1, .running) := by decide
theorem test_L2_load_unloaded_cell : regAfter (doc [(0, 0xA9F0)] []) 3 = some (0xFFFF, 1, .running) := by decide
theorem test_T1_store : (after (doc [(0, 0xB160)] [(2, 5)])).map (fun t => (t.readCell 12, t.readCell 11, t.pc)) =
    some (some 5, some 0xFFFF, 1) := by decide
theorem test_T5_stored_sentinel_halts :
    ((after (doc [(0, 0xB308), (1, 0x0529)] [(6, 0xFFFF)])).bind after).map (fun t => (t.runState, t.pc, t.mem)) =
      some (.halted, 1, [(0, 0xB308)]) := by decide
theorem test_A1_add : regAfter (doc [(0, 0x0101)] [(0, 7), (1, 0xFFFE)]) 2 = some (5, 1, .running) := by decide
theorem test_A2_add_same_register : regAfter (doc [(0, 0x0089)] [(1, 0x8000)]) 1 = some (0, 1, .running) := by decide
theorem test_A6_addi_wraps : regAfter (doc [(0, 0x05FB)] [(3, 0xFFFF)]) 3 = some (0x000E, 1, .running) := by decide
theorem test_A9_addi_8 : regAfter (doc [(0, 0x0541)] [(1, 1)]) 2 = some (9, 1, .running) := by decide
theorem test_B1_sub : regAfter (doc [(0, 0x098A)] [(1, 3), (2, 5)]) 3 = some (0xFFFE, 1, .running) := by decide
theorem test_B2_sub : regAfter (doc [(0, 0x0991)] [(1, 3), (2, 5)]) 3 = some (2, 1, .running) := by decide
theorem test_B6_subi : regAfter (doc [(0, 0x0D19)] [(1, 9)]) 2 = some (0xFFFA, 1, .running) := by decide
theorem test_B9_subi_negates : regAfter (doc [(0, 0x0C01)] [(1, 0x8000)]) 0 = some (0x8000, 1, .running) := by decide
theorem test_C1_and : regAfter (doc [(0, 0x118A)] [(1, 0x0FF0), (2, 0x3C3C)]) 3 = some (0x0C30, 1, .running) := by
  decide
theorem test_C3_andi : regAfter (doc [(0, 0x167B)] [(3, 0xFFF3)]) 4 = some (3, 1, .running) := by decide
theorem test_O1_or : regAfter (doc [(0, 0x1AA1)] [(4, 3), (1, 9)]) 5 = some (0x000B, 1, .running) := by decide
theorem test_O4_ori : regAfter (doc [(0, 0x1CC2)] [(2, 0x0101)]) 1 = some (0x0109, 1, .running) := by decide
theorem test_E1_xor : regAfter (doc [(0, 0x2191)] [(2, 0xFFFA), (1, 9)]) 3 = some (0xFFF3, 1, .running) := by decide
theorem test_E3_xori : regAfter (doc [(0, 0x27FF)] [(7, 0x00FF)]) 7 = some (0x00F0, 1, .running) := by decide

/-- S4 (G1): the sentinel at 0 halts with `pc` 0 and nothing else changed. -/
theorem test_S4_halt : after State.reset = some { State.reset with runState := .halted } := by decide

/-- F1, F3, X1 at index 0: the kind, the index, `pc` = 1. -/
theorem test_fault_records :
    recordAfter (doc [(0, 0x0141)] []) = some (.faulted, .registerIndexOutOfBounds, 0, 1) ∧
    recordAfter (doc [(0, 0x2800)] []) = some (.faulted, .invalidALUOpcode, 0, 1) ∧
    recordAfter (doc [(0, 0x8141)] []) = some (.faulted, .invalidDataTransferOpcode, 0, 1) := by decide

/-- S3(a): the load_store_unit driven with address 512; S3(b): a memory of 8 words; and the order of the two checks
(word 0x8040), with LOAD of cell 7 still in bounds. -/
theorem test_S3_out_of_bounds :
    (match loadCell 0 512#16 State.reset with | .next t => t.faultKind | _ => .none) = .outOfBoundsAddress ∧
    loadStoreUnit State.reset 0b0101 0 512#16 = .raise .outOfBoundsAddress ∧
    recordAfter (boot ⟨8, 0xFFFF⟩ [(0, 0xA9C0)] []) = some (.faulted, .outOfBoundsAddress, 0, 1) ∧
    recordAfter (boot ⟨8, 0xFFFF⟩ [(0, 0xB1F8)] []) = some (.faulted, .outOfBoundsAddress, 0, 1) ∧
    recordAfter (boot ⟨8, 0xFFFF⟩ [(0, 0x8040)] []) = some (.faulted, .outOfBoundsAddress, 0, 1) ∧
    regAfter (boot ⟨8, 0xFFFF⟩ [(0, 0xA9B8), (7, 5)] []) 3 = some (5, 1, .running) := by decide

/-- G3, G7 at their last steps: exhaustion leaves `pc` at 512; a fault at 511 leaves it there too. -/
theorem test_end_of_memory :
    recordAfter { State.reset with pc := 512 } = some (.halted, .none, 0, 512) ∧
    recordAfter { doc [(511, 0x3909)] [] with pc := 511 } = some (.faulted, .invalidALUOpcode, 511, 512) := by decide

/-- The codes of 10_state.md R27 and 60_exceptions.md R131. -/
theorem test_codes : [RunState.running, .halted, .faulted].map runStateCode = [0, 1, 2] ∧
    [FaultKind.none, .outOfBoundsAddress, .invalidDataTransferOpcode, .registerIndexOutOfBounds,
      .invalidALUOpcode].map faultKindCode = [0, 1, 2, 3, 4] := by decide

/-- Reset lists nothing, and its memory is canonical. -/
theorem test_reset_memory : Memory.wf State.reset.cfg.sentinel State.reset.cfg.memWords State.reset.mem ∧
    State.reset.readCell 0 = some 0xFFFF ∧ State.reset.readCell 511 = some 0xFFFF ∧ State.reset.readCell 512 = none := by
  decide

/-- A placed word is the first instruction after reset; from a halted machine it takes a reset, which keeps memory. -/
theorem test_withFetchWord : regAfter (State.reset.withFetchWord 16 0x0529) 2 = some (5, 1, .running) ∧
    (State.withFetchWord { doc [(9, 7)] [(1, 3)] with runState := .halted, pc := 4 } 16 0x0529) =
      doc [(0, 0x0529), (9, 7)] [] := by decide

/-! ### Hypotheses that can be met: one concrete case for each statement of Certificates/Slice0 that has any -/

/-- `s` is RUNNING and its next step fetches and dispatches the word `w`. -/
abbrev Dispatches (s : State) (w : Word) : Prop :=
  s.runState = .running ∧ s.readCell s.pc = some w ∧ w ≠ s.cfg.sentinel

/-- A running state about to execute SUBI r2, 3, r1. -/
def ready : State := doc [(0, 0x0D19)] [(1, 9)]

theorem witness_DecodeOfEncodeIsTheInstruction : (Instr.add 7 7 7).wf = true ∧ Instr.add 7 7 7 ≠ .halt ∧
    encode Config.document (.add 7 7 7) ≠ Config.document.sentinel ∧ Instr.halt.wf = true := by decide
theorem witness_EncodeOfDecodeIsTheWord : decode Config.document 0x27FF = .instr (.xori 7 15 7) := by decide
/-- Boundary words of rows: the last LOAD word, and a register form's last in-range and first out-of-range index. -/
theorem witness_DecoderFollowsTheOpcodeTable : (0xAFFF#16 ≠ Config.document.sentinel ∧ 0xAFFF#16 &&& 0xF800 = 0xA800) ∧
    (0x0139#16 ≠ Config.document.sentinel ∧ 0x0139#16 &&& 0xFC40 = 0x0000) ∧ 0x0141#16 &&& 0xFC40 ≠ 0x0000 := by decide
/-- The first and last words of the classes of R68 that meet: `operand2` 7 and 8, opcodes 4, 5 and 7, 0xFFFE. -/
theorem witness_IllegalWordsFallInTheirClass :
    decode Config.document 0x2840#16 = .illegal .registerIndex ∧ decode Config.document 0x2838#16 = .illegal .aluOpcode ∧
    decode Config.document 0x2C40#16 = .illegal .aluOpcode ∧
    decode Config.document 0xFFFE#16 = .illegal (.dataTransferOpcode 15) := by decide
theorem witness_StepRunsTheDecodedInstruction :
    (ready.runState = .running ∧ ready.readCell ready.pc = some 0x0D19 ∧
      decode ready.cfg 0x0D19 = .instr (.subi 2 3 1) ∧ (0x0D19 : Word) ≠ ready.cfg.sentinel) ∧
    (State.reset.runState = .running ∧ State.reset.readCell State.reset.pc = some State.reset.cfg.sentinel ∧
      decode State.reset.cfg State.reset.cfg.sentinel = .instr .halt) := by decide
/-- Both halt conditions, at the boundary `pc` = MEM_WORDS and at the sentinel, and a halting step. -/
theorem witness_HaltConditionAndEffect :
    (State.reset.runState = .running ∧ State.reset.readCell State.reset.pc = some State.reset.cfg.sentinel) ∧
    (let s := { State.reset with pc := 512 }; s.runState = .running ∧ s.cfg.memWords ≤ s.pc) ∧
    (after State.reset).map (·.runState) = some .halted := by decide
theorem witness_TerminalStatesTakeNoStep :
    (let s := { State.reset with runState := .halted }; s.runState ≠ .running ∧ s.runState = .halted) ∧
    (let s := { State.reset with runState := .faulted }; s.runState ≠ .running ∧ s.runState = .faulted) := by decide
/-- A running state, and both ways a step faults. -/
theorem witness_StepIsTotalWhileRunning : ready.runState = .running ∧
    (after (doc [(0, 0x3909)] [])).map (·.runState) = some .faulted ∧
    (after (boot ⟨8, 0xFFFF⟩ [(0, 0xA9C0)] [])).map (·.runState) = some .faulted := by decide
/-- The two cases of the `pc` rule: a running step answers, halting or not. -/
theorem witness_PcMovesByOneOrTheMachineHalts : ready.runState = .running ∧
    (after ready).map (·.pc) = some 1 ∧ (after State.reset).map (·.pc) = some 0 := by decide
/-- Both halts; and STORE at the last cell of a memory of 8 words and at the address past it. -/
theorem witness_StepWritesAtMostOnePlace :
    (let s := { State.reset with pc := 512 }; s.runState = .running ∧ s.cfg.memWords ≤ s.pc ∧
      Memory.wf s.cfg.sentinel s.cfg.memWords s.mem) ∧
    State.reset.readCell State.reset.pc = some State.reset.cfg.sentinel ∧
    (let s := boot ⟨8, 0xFFFF⟩ [(0, 0xB1B8)] []; Dispatches s 0xB1B8 ∧ Memory.wf s.cfg.sentinel s.cfg.memWords s.mem ∧
      IsStoreWord 0xB1B8 ∧ (effectiveAddress (fields 0xB1B8).operand2).toNat = 7) ∧
    (let s := boot ⟨8, 0xFFFF⟩ [(0, 0xB1C0)] []; Dispatches s 0xB1C0 ∧ IsStoreWord 0xB1C0 ∧
      (effectiveAddress (fields 0xB1C0).operand2).toNat = 8) := by decide
/-- Its other clauses: LOAD at the same two addresses, an ALU word, a word of no row. -/
theorem witness_StepWritesAtMostOnePlace_others :
    (let s := boot ⟨8, 0xFFFF⟩ [(0, 0xA9B8)] []; Dispatches s 0xA9B8 ∧ IsLoadWord 0xA9B8 ∧
      (effectiveAddress (fields 0xA9B8).operand2).toNat = 7) ∧
    (let s := boot ⟨8, 0xFFFF⟩ [(0, 0xA9C0)] []; Dispatches s 0xA9C0 ∧ IsLoadWord 0xA9C0 ∧
      (effectiveAddress (fields 0xA9C0).operand2).toNat = 8) ∧
    (Dispatches ready 0x0D19 ∧ Memory.wf 0xFFFF 512 ready.mem ∧ IsAluWord 0x0D19) ∧
    (Dispatches (doc [(0, 0x0141)] []) 0x0141 ∧ ¬ IsStoreWord 0x0141 ∧ ¬ IsLoadWord 0x0141 ∧
      ¬ IsAluWord 0x0141) := by decide
/-- STORE into the next cell: of an instruction (T3), of the sentinel (T5), of the illegal word 0x3909 (F3). -/
theorem witness_StoredWordIsFetchedNext :
    (let s := doc [(0, 0xB208)] [(4, 0x0529)]
     Dispatches s (encode s.cfg (.store 0 4 1 0)) ∧ Memory.wf s.cfg.sentinel s.cfg.memWords s.mem ∧
      (1 : Nibble).toNat = s.pc + 1 ∧ (1 : Nibble).toNat < s.cfg.memWords ∧ (after s).isSome = true ∧
      s.reg 4 ≠ s.cfg.sentinel ∧ decode s.cfg (s.reg 4) = .instr (.addi 2 5 1)) ∧
    (let s := doc [(0, 0xB308)] [(6, 0xFFFF)]
     Dispatches s (encode s.cfg (.store 0 6 1 0)) ∧ Memory.wf s.cfg.sentinel s.cfg.memWords s.mem ∧
      (after s).isSome = true ∧ s.reg 6 = s.cfg.sentinel) ∧
    (let s := doc [(0, 0xB208)] [(4, 0x3909)]
     Dispatches s (encode s.cfg (.store 0 4 1 0)) ∧ Memory.wf s.cfg.sentinel s.cfg.memWords s.mem ∧
      (after s).isSome = true ∧ decode s.cfg (s.reg 4) = .illegal .aluOpcode ∧
      (after s).bind recordAfter = some (.faulted, .invalidALUOpcode, 1, 2)) := by decide
theorem witness_StepAgreesWithTheUnits : ready.runState = .running ∧ after ready = some (datapathStep ready) := by decide
theorem witness_IllegalWordTakesItsFault : let s := doc [(0, 0x8141)] []
    s.runState = .running ∧ s.readCell s.pc = some 0x8141 ∧ decode s.cfg 0x8141 = .illegal (.dataTransferOpcode 8) := by
  decide
/-- `operand2` at its boundary 8, with a defined and an undefined opcode; and the instruction form. -/
theorem witness_RegisterIndexOutOfBoundsFault :
    (Dispatches (doc [(0, 0x0141)] []) 0x0141 ∧ (fields 0x0141).t = 0 ∧ (fields 0x0141).i = 0 ∧
      8 ≤ (fields 0x0141).operand2.toNat) ∧
    (Dispatches (doc [(0, 0x4840)] []) 0x4840 ∧ (fields 0x4840).t = 0 ∧ (fields 0x4840).i = 0 ∧
      8 ≤ (fields 0x4840).operand2.toNat) ∧ 8 ≤ (8 : Nibble).toNat := by decide
/-- Opcode at its boundary 5, once for each side of the disjunction: `I = 1`, and `operand2` at its boundary 7. -/
theorem witness_InvalidAluOpcodeFault :
    (Dispatches (doc [(0, 0x2C40)] []) 0x2C40 ∧ (fields 0x2C40).t = 0 ∧ 5 ≤ (fields 0x2C40).opcode.toNat ∧
      (fields 0x2C40).i = 1) ∧
    (Dispatches (doc [(0, 0x2838)] []) 0x2838 ∧ (fields 0x2838).t = 0 ∧ 5 ≤ (fields 0x2838).opcode.toNat ∧
      (fields 0x2838).operand2.toNat < 8) := by decide
/-- The bounds check on both sides of the boundary, at a memory of 8 words. -/
theorem witness_InvalidDataTransferOpcodeFault :
    (Dispatches (boot ⟨8, 0xFFFF⟩ [(0, 0x8038)] []) 0x8038 ∧ (fields 0x8038).t = 1 ∧
      (fields 0x8038).opcode ≠ 0b0101 ∧ (fields 0x8038).opcode ≠ 0b0110 ∧ ¬ 8 ≤ (fields 0x8038).operand2.toNat) ∧
    (Dispatches (boot ⟨8, 0xFFFF⟩ [(0, 0x8040)] []) 0x8040 ∧ (fields 0x8040).t = 1 ∧
      (fields 0x8040).opcode ≠ 0b0101 ∧ (fields 0x8040).opcode ≠ 0b0110 ∧ 8 ≤ (fields 0x8040).operand2.toNat) := by
  decide
theorem witness_OutOfBoundsAddressFault :
    State.reset.cfg.memWords ≤ (512#16).toNat ∧ (boot ⟨8, 0xFFFF⟩ [] []).cfg.memWords ≤ (8 : Nibble).toNat ∧
    16 ≤ (boot ⟨16, 0xFFFF⟩ [] []).cfg.memWords := by decide
theorem witness_LegalWordsNeverFault : ready.runState = .running ∧ 16 ≤ ready.cfg.memWords ∧
    ready.readCell ready.pc = some 0x0D19 ∧ decode ready.cfg 0x0D19 = .instr (.subi 2 3 1) ∧
    (after ready).isSome = true := by decide
/-- The address at the top of a memory of 8 words, and a word of the row. -/
theorem witness_LoadCopiesCellToRegister : (7 : Nibble).toNat < (boot ⟨8, 0xFFFF⟩ [] []).cfg.memWords ∧
    0xA848#16 ≠ Config.document.sentinel ∧ 0xA848#16 &&& 0xF800 = 0xA800 := by decide
theorem witness_StoreCopiesRegisterToCell : (let s := boot ⟨8, 0xFFFF⟩ [(0, 0xB1B8)] []
    Memory.wf s.cfg.sentinel s.cfg.memWords s.mem ∧ (7 : Nibble).toNat < s.cfg.memWords) ∧
    0xB160#16 ≠ Config.document.sentinel ∧ 0xB160#16 &&& 0xF800 = 0xB000 := by decide
/-- The five register forms: the first operand at its boundary 7, and a word of each row. -/
theorem witness_RegisterForms : (7 : Nibble).toNat < 8 ∧
    0x0101#16 ≠ Config.document.sentinel ∧ 0x0101#16 &&& 0xFC40 = 0x0000 ∧
    0x098A#16 ≠ Config.document.sentinel ∧ 0x098A#16 &&& 0xFC40 = 0x0800 ∧
    0x118A#16 ≠ Config.document.sentinel ∧ 0x118A#16 &&& 0xFC40 = 0x1000 ∧
    0x1AA1#16 ≠ Config.document.sentinel ∧ 0x1AA1#16 &&& 0xFC40 = 0x1800 ∧
    0x2191#16 ≠ Config.document.sentinel ∧ 0x2191#16 &&& 0xFC40 = 0x2000 := by decide
/-- The five immediate forms: a word of each row. -/
theorem witness_ImmediateForms :
    0x0529#16 ≠ Config.document.sentinel ∧ 0x0529#16 &&& 0xFC00 = 0x0400 ∧
    0x0D19#16 ≠ Config.document.sentinel ∧ 0x0D19#16 &&& 0xFC00 = 0x0C00 ∧
    0x167B#16 ≠ Config.document.sentinel ∧ 0x167B#16 &&& 0xFC00 = 0x1400 ∧
    0x1CC2#16 ≠ Config.document.sentinel ∧ 0x1CC2#16 &&& 0xFC00 = 0x1C00 ∧
    0x27FF#16 ≠ Config.document.sentinel ∧ 0x27FF#16 &&& 0xFC00 = 0x2400 := by decide
/-- A register form and an immediate form, at the last defined opcode. -/
theorem witness_AluEncodingsWriteTheirResult :
    (Dispatches (doc [(0, 0x2038)] []) 0x2038 ∧ (fields 0x2038).t = 0 ∧ (fields 0x2038).opcode.toNat ≤ 4 ∧
      (fields 0x2038).operand2.toNat < 8) ∧
    (Dispatches (doc [(0, 0x27FF)] []) 0x27FF ∧ (fields 0x27FF).t = 0 ∧ (fields 0x27FF).opcode.toNat ≤ 4 ∧
      (fields 0x27FF).i = 1) := by decide
/-- A canonical memory, and addresses on both sides of the capacity. -/
theorem witness_CellReadsBackWhatWasWritten : Memory.wf ready.cfg.sentinel ready.cfg.memWords ready.mem ∧
    511 < ready.cfg.memWords ∧ ready.cfg.memWords ≤ 512 := by decide
theorem witness_EqualCellsAreEqualMemories : Memory.wf 0xFFFF 4 [(1, 5), (3, 0)] ∧
    ∀ a < 4, Memory.read 0xFFFF [(1, 5), (3, 0)] a = Memory.read 0xFFFF [(1, 5), (3, 0)] a := by decide
theorem witness_CellsFromSixteenUpNeverChange : Memory.wf ready.cfg.sentinel ready.cfg.memWords ready.mem ∧
    RunsTo 1 ready (datapathStep ready) := ⟨by decide, rfl⟩
/-- Two states at `pc` 20 that differ in cell 17, which `pc` has passed. -/
theorem witness_PassedCellsNeverMatter :
    (let s : State := { doc [(17, 1), (20, 0x1800)] [] with pc := 20 }
     let s' : State := { doc [(17, 2), (20, 0x1800)] [] with pc := 20 }
     s.mem ≠ s'.mem ∧ Memory.wf s.cfg.sentinel s.cfg.memWords s.mem ∧
      Memory.wf s'.cfg.sentinel s'.cfg.memWords s'.mem ∧ AgreeAhead s s' ∧ RunsTo 1 s (datapathStep s)) := by
  refine ⟨by decide, by decide, by decide, ⟨fun _ => rfl, ⟨rfl, rfl, rfl, rfl⟩, rfl, fun a ha => ?_⟩, rfl⟩
  have h17 : 17 ≠ a := by rintro rfl; exact absurd ha (by decide)
  simp [State.readCell, doc, boot, Memory.write, Memory.entry, Memory.read, Config.document, h17]
/-- The invariant in a running state that steps, and in a faulted one. -/
theorem witness_InvariantKeptByEveryStep : ready.Inv ∧ (after ready).isSome = true ∧ (datapathStep ready).Inv ∧
    (datapathStep (doc [(0, 0x3909)] [])).Inv := by decide
theorem witness_StartHoldsTheImage : Config.document.legal = true ∧ (⟨1, 0⟩ : Config).legal = true ∧
    (⟨65536, 0⟩ : Config).legal = true ∧ (⟨0, 0⟩ : Config).legal = false ∧ (⟨65537, 0⟩ : Config).legal = false := by decide
theorem witness_ZeroInstructionRunReportsZeros : Config.document.legal = true ∧
    (fun a : Nat => if a = 1 then (0x0529 : Word) else 0xFFFF) 0 = Config.document.sentinel := by decide
/-- A step to HALTED, one to FAULTED, one that stays RUNNING. -/
theorem witness_OutputsFollowTheRunState :
    State.reset.runState = .running ∧
    (after State.reset).bind (·.diagnostic) = none ∧ ((after State.reset).bind (·.report)).isSome = true ∧
    (after (doc [(0, 0x3909)] [])).bind (·.report) = none ∧
    (after (doc [(0, 0x3909)] [])).bind (·.diagnostic) = some (.invalidALUOpcode, 0) ∧
    (after ready).bind (·.report) = none ∧ (after ready).bind (·.diagnostic) = none := by decide
/-- A running state with `pc` at the end, and one at the start. -/
theorem witness_EveryRunEnds : ready.runState = .running ∧ ready.pc ≤ ready.cfg.memWords ∧
    (let s : State := { ready with pc := 512 }; s.runState = .running ∧ s.pc ≤ s.cfg.memWords) := by decide
/-- A memory of 16 words that holds one SUBI and the prefill. -/
theorem witness_StoreFreeLegalProgramsHalt : let s := boot ⟨16, 0xFFFF⟩ [(0, 0x0D19)] []
    s.runState = .running ∧ s.pc ≤ s.cfg.memWords ∧ 16 ≤ s.cfg.memWords ∧
    ∀ a w, s.pc ≤ a → s.readCell a = some w →
      ∃ i, decode s.cfg w = .instr i ∧ ∀ iBit r addr op3, i ≠ .store iBit r addr op3 := by
  refine ⟨by decide, by decide, by decide, fun a w _ hw => ?_⟩
  have h : w = 0x0D19 ∨ w = 0xFFFF := by
    unfold State.readCell at hw
    split at hw
    · have hr : (if 0 = a then (0x0D19 : Word) else 0xFFFF) = w := Option.some.inj hw
      split at hr
      · exact .inl hr.symm
      · exact .inr hr.symm
    · cases hw
  rcases h with rfl | rfl
  · exact ⟨.subi 2 3 1, by decide, by simp⟩
  · exact ⟨.halt, by decide, by simp⟩
theorem witness_PlacedWordRunsNext : State.reset.cfg.legal = true ∧
    Memory.wf State.reset.cfg.sentinel State.reset.cfg.memWords State.reset.mem ∧
    decode State.reset.cfg (BitVec.ofNat 16 0x0529) = .instr (.addi 2 5 1) ∧
    decode State.reset.cfg (BitVec.ofNat 16 0xFFFF) = .instr .halt := by decide

end Sys2Proof.Tests
end

section
/-! SUPPORT. Proofs about the state: what the reset and a started run hold, what a step writes, and the invariant that
every step keeps (10_state.md R20 to R34). -/

namespace Sys2Proof.Machine

/-! ### A step, read off the fetched word -/

/-- At the halt condition of 42_execution_engine.md R116 the step is the halt. -/
theorem step_halt {s : State} (hr : s.runState = .running)
    (h : s.cfg.memWords ≤ s.pc ∨ s.readCell s.pc = some s.cfg.sentinel) : step s = .next s.halt := by
  rcases step_cases hr with ⟨hs, -⟩ | ⟨w, hp, hw, hne, -⟩
  · exact hs
  · rcases h with h | h
    · omega
    · exact absurd (Option.some.inj (hw.symm.trans h)) hne

/-- A fetched word that is not the sentinel and decodes to an instruction runs it, after the increment of `pc`
(42_execution_engine.md R115). -/
theorem step_of_decode_instr {s : State} {w : Word} {i : Instr} (hr : s.runState = .running)
    (hw : s.readCell s.pc = some w) (hne : w ≠ s.cfg.sentinel) (hd : decode s.cfg w = .instr i) :
    step s = exec i s.incrementPc := by
  simp only [step_running hr, stepRunning, State.fetch_word hw, if_neg hne, hd]

/-- A fetched illegal word that is not the sentinel takes its fault, after the increment of `pc`
(42_execution_engine.md R115). -/
theorem step_of_decode_illegal {s : State} {w : Word} {r : Illegal} (hr : s.runState = .running)
    (hw : s.readCell s.pc = some w) (hne : w ≠ s.cfg.sentinel) (hd : decode s.cfg w = .illegal r) :
    step s = .next (s.incrementPc.takeIllegal r) := by
  simp only [step_running hr, stepRunning, State.fetch_word hw, if_neg hne, hd]

/-! ### What an effect keeps -/

theorem Effect.cfg_eq {i : Instr} {s t : State} (h : Effect i s t) : t.cfg = s.cfg := by
  cases h <;> rfl

theorem Effect.pc_eq {i : Instr} {s t : State} (h : Effect i s t) : t.pc = s.pc := by
  cases h <;> rfl

/-- Only HALT reaches HALTED. -/
theorem Effect.runState_ne_halted {i : Instr} {s t : State} (h : Effect i s t) (hi : i ≠ .halt)
    (hr : s.runState ≠ .halted) : t.runState ≠ .halted := by
  cases h with
  | halt h => exact absurd h hi
  | writeReg r v => exact hr
  | writeMem iBit r addr op3 hi ha => exact hr
  | fault kind hk hf => simp

/-- No step changes the parameters (00_scope.md R6). -/
theorem StepEffect.cfg_eq {s t : State} (h : StepEffect s t) : t.cfg = s.cfg := by
  cases h with
  | halt h => rfl
  | instr w i t hp hw hne hd hi hx he => exact he.cfg_eq
  | illegal w r hp hw hne hd => rfl

/-- Every illegal word makes its unit signal one of the four faults (30_encoding.md R68). -/
theorem illegalFaultKind_ne_none (c : Config) (r : Illegal) : illegalFaultKind c r ≠ .none := by
  cases r with
  | registerIndex => simp [illegalFaultKind]
  | aluOpcode => simp [illegalFaultKind]
  | dataTransferOpcode addr =>
    unfold illegalFaultKind
    dsimp only
    split <;> simp

/-! ### The invariant, one lemma per update -/

theorem State.Inv.halt {s : State} (h : s.Inv) (hr : s.runState = .running) : s.halt.Inv := by
  obtain ⟨hcfg, hpc, hmem, -, hrest⟩ := h
  exact ⟨hcfg, hpc, hmem, by simp, fun _ => hrest (by simp [hr])⟩

theorem State.Inv.incrementPc {s : State} (h : s.Inv) (hr : s.runState = .running) (hp : s.pc < s.cfg.memWords) :
    s.incrementPc.Inv := by
  obtain ⟨hcfg, -, hmem, -, hrest⟩ := h
  exact ⟨hcfg, hp, hmem, by simp [hr], hrest⟩

theorem State.Inv.setReg {s : State} (h : s.Inv) (r : RegIdx) (v : Word) : (s.setReg r v).Inv := h

theorem State.Inv.write {s : State} (h : s.Inv) {a : Nat} (ha : a < s.cfg.memWords) (v : Word) :
    State.Inv { s with mem := Memory.write s.cfg.sentinel s.mem a v } := by
  obtain ⟨hcfg, hpc, hmem, hrecord⟩ := h
  exact ⟨hcfg, hpc, Memory.write_wf hmem ha v, hrecord⟩

/-- Taking a fault records an address one below `pc`, so `pc` must have moved (60_exceptions.md R138). -/
theorem State.Inv.takeFault {s : State} (h : s.Inv) {kind : FaultKind} (hk : kind ≠ .none) (hp : 0 < s.pc) :
    (s.takeFault kind).Inv := by
  obtain ⟨hcfg, hpc, hmem, -⟩ := h
  exact ⟨hcfg, hpc, hmem, fun _ => ⟨hk, (Nat.sub_add_cancel hp).symm⟩, fun hn => absurd rfl hn⟩

theorem Effect.inv {i : Instr} {s t : State} (he : Effect i s t) (h : s.Inv) (hr : s.runState = .running)
    (hp : 0 < s.pc) : t.Inv := by
  cases he with
  | halt hi => exact h.halt hr
  | writeReg r v => exact h.setReg r v
  | writeMem iBit r addr op3 hi ha => exact h.write ha _
  | fault kind hk hf => exact h.takeFault hk hp

/-- Settles O39, by the effect of the step: each is one of the updates above, after the increment of `pc`. -/
theorem invariantKeptByEveryStep : Obligations.InvariantKeptByEveryStep := by
  intro s t hs hstep
  have hr := running_of_step hstep
  cases stepEffect_of_step hr hstep with
  | halt h => exact hs.halt hr
  | instr w i t hp hw hne hd hi hx he => exact he.inv (hs.incrementPc hr hp) hr (Nat.succ_pos _)
  | illegal w r hp hw hne hd =>
    exact (hs.incrementPc hr hp).takeFault (illegalFaultKind_ne_none _ r) (Nat.succ_pos _)

/-- Settles O11, by the effect of the step: only a halt does not increment `pc`, and no instruction moves it further. -/
theorem pcMovesByOneOrTheMachineHalts : Obligations.PcMovesByOneOrTheMachineHalts := by
  intro s t hr hstep
  cases stepEffect_of_step hr hstep with
  | halt h => exact .inl ⟨rfl, rfl⟩
  | instr w i t hp hw hne hd hi hx he =>
    have hrun : s.incrementPc.runState ≠ .halted := by simp [hr]
    exact .inr ⟨he.runState_ne_halted hi hrun, he.pc_eq, hp⟩
  | illegal w r hp hw hne hd => exact .inr ⟨by simp, rfl, hp⟩

/-! ### What a step writes beside `pc` -/

/-- Decoding a STORE word (30_encoding.md R66). -/
theorem decode_of_isStoreWord {c : Config} {w : Word} (hne : w ≠ c.sentinel) (h : IsStoreWord w) :
    decode c w = .instr (.store (fields w).i (fields w).operand1 (fields w).operand2 (fields w).operand3) := by
  rcases decode_cases hne with ⟨-, hd⟩ | ⟨hl, -⟩ | ⟨ha, -⟩ | ⟨hn, -⟩
  · exact hd
  · exact absurd (h.2.symm.trans hl.2) (by decide)
  · exact absurd (h.1.symm.trans ha.1) (by decide)
  · exact absurd h hn

/-- Decoding a LOAD word (30_encoding.md R66). -/
theorem decode_of_isLoadWord {c : Config} {w : Word} (hne : w ≠ c.sentinel) (h : IsLoadWord w) :
    decode c w = .instr (.load (fields w).i (fields w).operand1 (fields w).operand2 (fields w).operand3) := by
  rcases decode_cases hne with ⟨hs, -⟩ | ⟨-, hd⟩ | ⟨ha, -⟩ | ⟨-, hn, -⟩
  · exact absurd (h.2.symm.trans hs.2) (by decide)
  · exact hd
  · exact absurd (h.1.symm.trans ha.1) (by decide)
  · exact absurd h hn

/-- Decoding a word of one of the ten ALU rows (30_encoding.md R66). -/
theorem decode_of_isAluWord {c : Config} {w : Word} (hne : w ≠ c.sentinel) (h : IsAluWord w) :
    ∃ i, decode c w = .instr i ∧ i.wf = true ∧ i.aluDest = some (fields w).operand1 := by
  rcases decode_cases hne with ⟨hs, -⟩ | ⟨hl, -⟩ | ⟨-, hd⟩ | ⟨-, -, hn, -⟩
  · exact absurd (h.1.symm.trans hs.1) (by decide)
  · exact absurd (h.1.symm.trans hl.1) (by decide)
  · exact hd
  · exact absurd h hn

/-- Decoding a word of no row (30_encoding.md R68). -/
theorem decode_of_no_row {c : Config} {w : Word} (hne : w ≠ c.sentinel) (hs : ¬ IsStoreWord w)
    (hl : ¬ IsLoadWord w) (ha : ¬ IsAluWord w) : ∃ r, decode c w = .illegal r := by
  rcases decode_cases hne with ⟨h, -⟩ | ⟨h, -⟩ | ⟨h, -⟩ | ⟨-, -, -, h⟩
  · exact absurd h hs
  · exact absurd h hl
  · exact absurd h ha
  · exact h

/-! The frame of each update made after the increment of `pc`. -/

theorem onlyRegister_setReg_incrementPc (s : State) (d : RegIdx) (v : Word) :
    OnlyRegister s (s.incrementPc.setReg d v) d :=
  ⟨fun _ hq => State.reg_setReg_other _ hq v, fun _ => rfl, rfl, rfl, rfl, rfl⟩

theorem onlyCell_write_incrementPc {s : State} (hm : Memory.wf s.cfg.sentinel s.cfg.memWords s.mem) {a : Nat}
    (ha : a < s.cfg.memWords) (v : Word) :
    OnlyCell s { s.incrementPc with mem := Memory.write s.cfg.sentinel s.mem a v } a :=
  ⟨fun b hb => (State.readCell_write (s := s.incrementPc) hm ha v b).trans (if_neg hb),
    fun _ => rfl, rfl, rfl, rfl, rfl⟩

theorem takesFault_takeFault_incrementPc (s : State) (kind : FaultKind) :
    TakesFault s (s.incrementPc.takeFault kind) kind s.pc :=
  ⟨rfl, rfl, rfl, rfl, fun _ => rfl, fun _ => rfl⟩

section FetchedWord

/-! A step of a RUNNING machine that fetched the word `w`, not the sentinel, by the kind of `w`. -/

variable {s t : State} {w : Word} (hr : s.runState = .running) (hw : s.readCell s.pc = some w)
  (hne : w ≠ s.cfg.sentinel) (hstep : step s = .next t)

include hr hw hne hstep

theorem onlyCell_of_isStoreWord (hm : Memory.wf s.cfg.sentinel s.cfg.memWords s.mem) (hs : IsStoreWord w)
    (ha : (effectiveAddress (fields w).operand2).toNat < s.cfg.memWords) :
    OnlyCell s t (effectiveAddress (fields w).operand2).toNat := by
  have hx := step_of_decode_instr hr hw hne (decode_of_isStoreWord hne hs)
  cases hstep.symm.trans (hx.trans (storeCell_of_lt (s := s.incrementPc) _ ha))
  exact onlyCell_write_incrementPc hm ha _

theorem takesFault_of_isStoreWord (hs : IsStoreWord w)
    (ha : s.cfg.memWords ≤ (effectiveAddress (fields w).operand2).toNat) :
    TakesFault s t .outOfBoundsAddress s.pc := by
  have hx := step_of_decode_instr hr hw hne (decode_of_isStoreWord hne hs)
  cases hstep.symm.trans (hx.trans (storeCell_of_le (s := s.incrementPc) _ ha))
  exact takesFault_takeFault_incrementPc s _

theorem onlyRegister_of_isLoadWord (hl : IsLoadWord w)
    (ha : (effectiveAddress (fields w).operand2).toNat < s.cfg.memWords) :
    OnlyRegister s t (fields w).operand1 := by
  have hx := step_of_decode_instr hr hw hne (decode_of_isLoadWord hne hl)
  cases hstep.symm.trans (hx.trans (loadCell_of_lt (s := s.incrementPc) _ ha))
  exact onlyRegister_setReg_incrementPc s _ _

theorem takesFault_of_isLoadWord (hl : IsLoadWord w)
    (ha : s.cfg.memWords ≤ (effectiveAddress (fields w).operand2).toNat) :
    TakesFault s t .outOfBoundsAddress s.pc := by
  have hx := step_of_decode_instr hr hw hne (decode_of_isLoadWord hne hl)
  cases hstep.symm.trans (hx.trans (loadCell_of_le (s := s.incrementPc) _ ha))
  exact takesFault_takeFault_incrementPc s _

theorem onlyRegister_of_isAluWord (ha : IsAluWord w) : OnlyRegister s t (fields w).operand1 := by
  obtain ⟨i, hd, hwf, hdest⟩ := decode_of_isAluWord hne ha
  obtain ⟨v, hx⟩ := exec_of_aluDest hdest hwf s.incrementPc
  cases hstep.symm.trans ((step_of_decode_instr hr hw hne hd).trans hx)
  exact onlyRegister_setReg_incrementPc s _ v

theorem takesFault_of_no_row (hs : ¬ IsStoreWord w) (hl : ¬ IsLoadWord w) (ha : ¬ IsAluWord w) :
    ∃ kind, kind ≠ .none ∧ TakesFault s t kind s.pc := by
  obtain ⟨r, hd⟩ := decode_of_no_row hne hs hl ha
  cases hstep.symm.trans (step_of_decode_illegal hr hw hne hd)
  exact ⟨_, illegalFaultKind_ne_none _ r, takesFault_takeFault_incrementPc s _⟩

end FetchedWord

/-- Settles O12: the step is total and keeps the parameters; each clause is the lemma for its kind of word. -/
theorem stepWritesAtMostOnePlace : Obligations.StepWritesAtMostOnePlace := by
  intro s hr hm
  obtain ⟨t, hstep, heff⟩ := step_stepEffect hr
  refine ⟨t, hstep, heff.cfg_eq, fun hend => ?_, ?_⟩
  · cases hstep.symm.trans (step_halt hr hend)
    exact ⟨rfl, rfl, rfl, fun _ => rfl, fun _ => rfl⟩
  · rintro w hw hne a rfl
    refine ⟨fun hs => ⟨?_, onlyCell_of_isStoreWord hr hw hne hstep hm hs,
        takesFault_of_isStoreWord hr hw hne hstep hs⟩,
      fun hl => ⟨onlyRegister_of_isLoadWord hr hw hne hstep hl, takesFault_of_isLoadWord hr hw hne hstep hl⟩,
      onlyRegister_of_isAluWord hr hw hne hstep, takesFault_of_no_row hr hw hne hstep⟩
    simpa using (fields w).operand2.isLt

/-! ### Canonical memories -/

/-- A canonical memory lists exactly the cells that do not read as the fill, each with what it reads as. -/
theorem Memory.mem_iff_read {fill : Word} {cap : Nat} {m : Memory} (hm : Memory.wf fill cap m) (a : Nat) (v : Word) :
    (a, v) ∈ m ↔ Memory.read fill m a = v ∧ v ≠ fill := by
  induction m with
  | nil => simp [Memory.read, eq_comm]
  | cons e m ih =>
    obtain ⟨k, u⟩ := e
    obtain ⟨habove, ⟨-, hu⟩, hwf⟩ := Memory.wf_cons.mp hm
    by_cases hk : k = a
    · subst hk
      have hnot : (k, v) ∉ m := fun h => Nat.lt_irrefl k (habove _ h)
      simp only [List.mem_cons, hnot, or_false, Memory.read, if_true, Prod.mk.injEq, true_and]
      exact ⟨fun h => ⟨h.symm, h ▸ hu⟩, fun h => h.1.symm⟩
    · simp [Memory.read, hk, Ne.symm hk, ih hwf]

/-- A canonical memory reads as the fill from its capacity up. -/
theorem Memory.read_of_cap_le {fill : Word} {cap : Nat} {m : Memory} (hm : Memory.wf fill cap m) {a : Nat}
    (ha : cap ≤ a) : Memory.read fill m a = fill := by
  by_contra hne
  have hlt := (hm.2 _ ((Memory.mem_iff_read hm a _).mpr ⟨rfl, hne⟩)).1
  omega

/-- A rising list of entries is determined by the entries it has. -/
theorem Memory.eq_of_mem_iff {m m' : Memory} (hm : m.Pairwise fun p q => p.1 < q.1)
    (hm' : m'.Pairwise fun p q => p.1 < q.1) (h : ∀ e, e ∈ m ↔ e ∈ m') : m = m' := by
  have : Std.Irrefl fun p q : Nat × Word => p.1 < q.1 := ⟨fun p => Nat.lt_irrefl p.1⟩
  have : Std.Antisymm fun p q : Nat × Word => p.1 < q.1 := ⟨fun _ _ hpq hqp => absurd hpq (Nat.lt_asymm hqp)⟩
  exact hm.eq_of_mem_iff hm' h

/-- Settles O36: memories that read alike list the same entries, and their order is fixed. -/
theorem equalCellsAreEqualMemories : Obligations.EqualCellsAreEqualMemories := by
  intro fill cap m m' hm hm' hread
  have hall : ∀ a, Memory.read fill m a = Memory.read fill m' a := fun a => by
    by_cases ha : a < cap
    · exact hread a ha
    · rw [Memory.read_of_cap_le hm (Nat.le_of_not_lt ha), Memory.read_of_cap_le hm' (Nat.le_of_not_lt ha)]
  refine Memory.eq_of_mem_iff hm.1 hm'.1 fun ⟨a, v⟩ => ?_
  rw [Memory.mem_iff_read hm, Memory.mem_iff_read hm', hall]

/-! ### Reset and the start of a run -/

/-- The invariant of a machine that has just left reset rests on its parameters and its memory alone. -/
theorem State.coreReset_inv {s : State} (hc : s.cfg.legal = true)
    (hm : Memory.wf s.cfg.sentinel s.cfg.memWords s.mem) : s.coreReset.Inv :=
  ⟨hc, Nat.zero_le _, hm, by simp, fun _ => ⟨rfl, rfl⟩⟩

/-- Settles O41, from the laws of the memory of an image. -/
theorem startHoldsTheImage : Obligations.StartHoldsTheImage := by
  intro c init hc
  refine ⟨State.coreReset_inv hc (Memory.ofImage_wf _ _ init), rfl, rfl, rfl, State.reg_coreReset _, fun a => ?_⟩
  split
  · rename_i ha
    rw [State.readCell_of_lt ha]
    exact congrArg some (Memory.read_ofImage _ _ init ha)
  · rename_i ha
    exact State.readCell_of_le (Nat.le_of_not_lt ha)

/-- Settles O40: the reset state is what reset leaves of itself, with legal parameters and no cell listed. -/
theorem invariantHoldsAtReset : Obligations.InvariantHoldsAtReset :=
  State.coreReset_inv (s := State.reset) (by decide) (Memory.wf_nil _ _)

end Sys2Proof.Machine
end

section
/-! SUPPORT. Proofs about memory: the bounds-checked accesses, a word stored ahead of its own fetch, and which cells a
run can change or depend on (20_memory.md R40 to R52). -/

namespace Sys2Proof.Machine

/-! ### One write -/

/-- The frame of a write inside the capacity. -/
theorem onlyCell_write {s : State} (hm : Memory.wf s.cfg.sentinel s.cfg.memWords s.mem) {a : Nat}
    (ha : a < s.cfg.memWords) (v : Word) :
    OnlyCell s { s with mem := Memory.write s.cfg.sentinel s.mem a v } a :=
  ⟨fun b hb => (State.readCell_write hm ha v b).trans (if_neg hb), fun _ => rfl, rfl, rfl, rfl, rfl⟩

/-- Settles O35, from the laws of a write inside the capacity and the bounds checks at and above it. -/
theorem cellReadsBackWhatWasWritten : Obligations.CellReadsBackWhatWasWritten := by
  intro s a v hm
  refine ⟨fun ha => ⟨_, State.writeCell_of_lt ha v, ?_, onlyCell_write hm ha v, rfl, Memory.write_wf hm ha v⟩,
    fun ha => ⟨State.writeCell_of_le ha v, State.readCell_of_le ha⟩⟩
  exact (State.readCell_write hm ha v a).trans (if_pos rfl)

/-! ### A word stored in the next cell -/

/-- The encoding of a STORE, where it is not the sentinel, decodes to that STORE (30_encoding.md R63, R66). -/
theorem decode_encode_store {c : Config} {iBit : BitVec 1} {r : RegIdx} {addr : Nibble} {op3 : BitVec 3}
    (hne : encode c (.store iBit r addr op3) ≠ c.sentinel) :
    decode c (encode c (.store iBit r addr op3)) = .instr (.store iBit r addr op3) := by
  rw [decode_of_ne_sentinel hne, encode_of_ne_halt c (by simp), fields_toWord]
  rfl

/-- A step over a STORE inside the capacity keeps the machine RUNNING, moves `pc` on, and leaves the register's value in
the cell (40_data_transfer.md R84). -/
theorem step_store {s t : State} {iBit : BitVec 1} {r : RegIdx} {addr : Nibble} {op3 : BitVec 3}
    (hr : s.runState = .running) (hm : Memory.wf s.cfg.sentinel s.cfg.memWords s.mem)
    (hw : s.readCell s.pc = some (encode s.cfg (.store iBit r addr op3)))
    (hne : encode s.cfg (.store iBit r addr op3) ≠ s.cfg.sentinel) (ha : addr.toNat < s.cfg.memWords)
    (hstep : step s = .next t) :
    t.runState = .running ∧ t.cfg = s.cfg ∧ t.pc = s.pc + 1 ∧ t.readCell addr.toNat = some (s.reg r) := by
  have hexec : exec (.store iBit r addr op3) s.incrementPc =
      .next { s.incrementPc with mem := Memory.write s.cfg.sentinel s.mem addr.toNat (s.reg r) } := by
    rw [← toNat_effectiveAddress] at ha ⊢
    exact storeCell_of_lt (s := s.incrementPc) r ha
  cases hstep.symm.trans ((step_of_decode_instr hr hw hne (decode_encode_store hne)).trans hexec)
  exact ⟨hr, rfl, rfl, (State.readCell_write (s := s.incrementPc) hm ha _ _).trans (if_pos rfl)⟩

/-- Settles O13: after the STORE the cell at `pc` holds the register's value, and each clause is the rule of the step
for that kind of fetched word. -/
theorem storedWordIsFetchedNext : Obligations.StoredWordIsFetchedNext := by
  intro s t iBit r addr op3 hr hm hw hne hnext ha hstep
  obtain ⟨htr, hcfg, hpc, hcell⟩ := step_store hr hm hw hne ha hstep
  rw [hnext, ← hpc] at hcell
  have hinc : t.incrementPc = { t with pc := s.pc + 2 } := by simp [State.incrementPc, hpc]
  rw [← hcfg]
  refine ⟨fun hs => step_halt htr (.inr (hs ▸ hcell)), fun i hs hd => ?_, fun why hd => ?_⟩
  · rw [← hinc]
    exact step_of_decode_instr htr hcell hs hd
  · have hs : s.reg r ≠ t.cfg.sentinel := by
      intro hs
      rw [hs, decode_sentinel] at hd
      cases hd
    refine ⟨_, step_of_decode_illegal htr hcell hs hd, ?_, congrArg (· + 1) hpc⟩
    rw [← hpc]
    exact takesFault_takeFault_incrementPc t _

/-! ### The cells a run can change -/

/-- Every effect keeps memory canonical. -/
theorem Effect.mem_wf {i : Instr} {s t : State} (h : Effect i s t)
    (hm : Memory.wf s.cfg.sentinel s.cfg.memWords s.mem) : Memory.wf t.cfg.sentinel t.cfg.memWords t.mem := by
  cases h with
  | halt hi => exact hm
  | writeReg r v => exact hm
  | writeMem iBit r addr op3 hi ha => exact Memory.write_wf hm ha _
  | fault kind hk hf => exact hm

/-- No effect reaches a cell at 16 or above: a STORE's address is its 4-bit field (20_memory.md R46). -/
theorem Effect.readCell_of_sixteen_le {i : Instr} {s t : State} (h : Effect i s t)
    (hm : Memory.wf s.cfg.sentinel s.cfg.memWords s.mem) {a : Nat} (ha : 16 ≤ a) :
    t.readCell a = s.readCell a := by
  cases h with
  | halt hi => rfl
  | writeReg r v => rfl
  | writeMem iBit r addr op3 hi hlt =>
    have hne : a ≠ addr.toNat := by have := addr.isLt; omega
    exact (State.readCell_write hm hlt _ a).trans (if_neg hne)
  | fault kind hk hf => rfl

/-- Every step keeps memory canonical. -/
theorem step_mem_wf {s t : State} (h : step s = .next t) (hm : Memory.wf s.cfg.sentinel s.cfg.memWords s.mem) :
    Memory.wf t.cfg.sentinel t.cfg.memWords t.mem := by
  cases stepEffect_of_step (running_of_step h) h with
  | halt _ => exact hm
  | instr w i t hp hw hne hd hi hx he => exact he.mem_wf hm
  | illegal w r hp hw hne hd => exact hm

/-- No step reaches a cell at 16 or above (20_memory.md R46). -/
theorem step_readCell_of_sixteen_le {s t : State} (h : step s = .next t)
    (hm : Memory.wf s.cfg.sentinel s.cfg.memWords s.mem) {a : Nat} (ha : 16 ≤ a) :
    t.readCell a = s.readCell a := by
  cases stepEffect_of_step (running_of_step h) h with
  | halt _ => rfl
  | instr w i t hp hw hne hd hi hx he => exact he.readCell_of_sixteen_le (s := s.incrementPc) hm ha
  | illegal w r hp hw hne hd => rfl

/-- What a run from `s` keeps of memory: the canonical form, the parameters, and every cell at 16 and above. -/
def KeepsHighCells (s t : State) : Prop :=
  Memory.wf t.cfg.sentinel t.cfg.memWords t.mem ∧ t.cfg = s.cfg ∧ ∀ a, 16 ≤ a → t.readCell a = s.readCell a

theorem KeepsHighCells.step {s t u : State} (h : KeepsHighCells s t) (hstep : step t = .next u) :
    KeepsHighCells s u := by
  obtain ⟨hm, hcfg, hcells⟩ := h
  exact ⟨step_mem_wf hstep hm, (stepEffect_of_step (running_of_step hstep) hstep).cfg_eq.trans hcfg,
    fun a ha => (step_readCell_of_sixteen_le hstep hm ha).trans (hcells a ha)⟩

/-- Settles O37: every step keeps the high cells, so every run does. -/
theorem cellsFromSixteenUpNeverChange : Obligations.CellsFromSixteenUpNeverChange := by
  intro k s t hm hrun
  exact (runsTo_keeps (P := KeepsHighCells s) (fun _ _ => KeepsHighCells.step) ⟨hm, rfl, fun _ _ => rfl⟩ hrun).2

/-! ### The cells a run can depend on

Two states that agree ahead make the same update, one lemma per update; then the operations of the instructions, `exec`
and the step answer states that agree ahead. -/

section AgreeAhead

variable {s s' : State} (h : AgreeAhead s s')

include h

theorem AgreeAhead.halt : AgreeAhead s.halt s'.halt := by
  obtain ⟨hreg, ⟨-, hkind, hindex, hcfg⟩, hpc, hcells⟩ := h
  exact ⟨hreg, ⟨rfl, hkind, hindex, hcfg⟩, hpc, hcells⟩

/-- The cell `pc` leaves behind drops out of the cells that must agree (42_execution_engine.md R121). -/
theorem AgreeAhead.incrementPc : AgreeAhead s.incrementPc s'.incrementPc := by
  obtain ⟨hreg, hctl, hpc, hcells⟩ := h
  exact ⟨hreg, hctl, congrArg (· + 1) hpc, fun a ha => hcells a (ha.imp_right Nat.le_of_succ_le)⟩

theorem AgreeAhead.takeFault (kind : FaultKind) : AgreeAhead (s.takeFault kind) (s'.takeFault kind) := by
  obtain ⟨hreg, ⟨-, -, -, hcfg⟩, hpc, hcells⟩ := h
  exact ⟨hreg, ⟨rfl, rfl, congrArg (· - 1) hpc, hcfg⟩, hpc, hcells⟩

theorem AgreeAhead.setReg (r : RegIdx) (v : Word) : AgreeAhead (s.setReg r v) (s'.setReg r v) := by
  obtain ⟨hreg, hctl, hpc, hcells⟩ := h
  refine ⟨fun q => ?_, hctl, hpc, hcells⟩
  by_cases hq : q = r
  · simp [hq]
  · simpa [hq] using hreg q

theorem AgreeAhead.write (hm : Memory.wf s.cfg.sentinel s.cfg.memWords s.mem)
    (hm' : Memory.wf s'.cfg.sentinel s'.cfg.memWords s'.mem) {a : Nat} (ha : a < s.cfg.memWords) (v : Word) :
    AgreeAhead { s with mem := Memory.write s.cfg.sentinel s.mem a v }
      { s' with mem := Memory.write s'.cfg.sentinel s'.mem a v } := by
  obtain ⟨hreg, ⟨hrun, hkind, hindex, hcfg⟩, hpc, hcells⟩ := h
  refine ⟨hreg, ⟨hrun, hkind, hindex, hcfg⟩, hpc, fun b hb => ?_⟩
  rw [State.readCell_write hm ha, State.readCell_write hm' (hcfg ▸ ha), hcells b hb]

theorem aluRegister_agreeAhead (f : Word → Word → Word) (d : RegIdx) (a : Nibble) (b : RegIdx) :
    ∃ t t', aluRegister f d a b s = .next t ∧ aluRegister f d a b s' = .next t' ∧ AgreeAhead t t' := by
  have ⟨hreg, _⟩ := h
  by_cases ha : a.toNat < 8
  · refine ⟨_, _, aluRegister_of_lt f d b s ha, aluRegister_of_lt f d b s' ha, ?_⟩
    rw [hreg, hreg]
    exact h.setReg d _
  · have hle := Nat.le_of_not_lt ha
    exact ⟨_, _, aluRegister_of_le f d b s hle, aluRegister_of_le f d b s' hle, h.takeFault _⟩

theorem aluImmediate_agreeAhead (f : Word → Word → Word) (d : RegIdx) (imm : Nibble) (b : RegIdx) :
    ∃ t t', aluImmediate f d imm b s = .next t ∧ aluImmediate f d imm b s' = .next t' ∧ AgreeAhead t t' := by
  have ⟨hreg, _⟩ := h
  refine ⟨_, _, rfl, rfl, ?_⟩
  rw [hreg]
  exact h.setReg d _

/-- A LOAD names a cell below 16, where the two states agree (20_memory.md R46). -/
theorem execLoad_agreeAhead (d : RegIdx) (addr : Nibble) :
    ∃ t t', execLoad d addr s = .next t ∧ execLoad d addr s' = .next t' ∧ AgreeAhead t t' := by
  have ⟨_, _, _, hcells⟩ := h
  have hcell : s'.readCell (effectiveAddress addr).toNat = s.readCell (effectiveAddress addr).toNat :=
    hcells _ (.inl (by simpa using addr.isLt))
  simp only [execLoad, loadCell, hcell]
  cases s.readCell (effectiveAddress addr).toNat with
  | none => exact ⟨_, _, rfl, rfl, h.takeFault _⟩
  | some v => exact ⟨_, _, rfl, rfl, h.setReg d v⟩

theorem execStore_agreeAhead (hm : Memory.wf s.cfg.sentinel s.cfg.memWords s.mem)
    (hm' : Memory.wf s'.cfg.sentinel s'.cfg.memWords s'.mem) (r : RegIdx) (addr : Nibble) :
    ∃ t t', execStore r addr s = .next t ∧ execStore r addr s' = .next t' ∧ AgreeAhead t t' := by
  have ⟨hreg, ⟨_, _, _, hcfg⟩, _, _⟩ := h
  by_cases ha : (effectiveAddress addr).toNat < s.cfg.memWords
  · refine ⟨_, _, storeCell_of_lt r ha, storeCell_of_lt r (hcfg ▸ ha), ?_⟩
    rw [hreg]
    exact h.write hm hm' ha _
  · have hle := Nat.le_of_not_lt ha
    exact ⟨_, _, storeCell_of_le r hle, storeCell_of_le r (hcfg ▸ hle), h.takeFault _⟩

/-- An instruction answers states that agree ahead from states that do. -/
theorem exec_agreeAhead (hm : Memory.wf s.cfg.sentinel s.cfg.memWords s.mem)
    (hm' : Memory.wf s'.cfg.sentinel s'.cfg.memWords s'.mem) (i : Instr) :
    ∃ t t', exec i s = .next t ∧ exec i s' = .next t' ∧ AgreeAhead t t' := by
  cases i with
  | halt => exact ⟨_, _, rfl, rfl, h.halt⟩
  | load _ d addr _ => exact execLoad_agreeAhead h d addr
  | store _ r addr _ => exact execStore_agreeAhead h hm hm' r addr
  | add d a b => exact aluRegister_agreeAhead h aluAdd d a b
  | addi d imm b => exact aluImmediate_agreeAhead h aluAdd d imm b
  | sub d a b => exact aluRegister_agreeAhead h aluSub d a b
  | subi d imm b => exact aluImmediate_agreeAhead h aluSub d imm b
  | and d a b => exact aluRegister_agreeAhead h aluAnd d a b
  | andi d imm b => exact aluImmediate_agreeAhead h aluAnd d imm b
  | or d a b => exact aluRegister_agreeAhead h aluOr d a b
  | ori d imm b => exact aluImmediate_agreeAhead h aluOr d imm b
  | xor d a b => exact aluRegister_agreeAhead h aluXor d a b
  | xori d imm b => exact aluImmediate_agreeAhead h aluXor d imm b

/-- A step fetches the same word in both states, since the cell at `pc` is ahead (42_execution_engine.md R121). -/
theorem step_agreeAhead (hm : Memory.wf s.cfg.sentinel s.cfg.memWords s.mem)
    (hm' : Memory.wf s'.cfg.sentinel s'.cfg.memWords s'.mem) (hr : s.runState = .running) :
    ∃ t t', step s = .next t ∧ step s' = .next t' ∧ AgreeAhead t t' := by
  have ⟨_, ⟨hrun, _, _, hcfg⟩, hpc, hcells⟩ := h
  have hr' := hrun.trans hr
  have hcell : s'.readCell s'.pc = s.readCell s.pc := hpc ▸ hcells s.pc (.inr le_rfl)
  rcases step_cases hr with ⟨hstep, hend⟩ | ⟨w, -, hw, hne, ⟨i, hd, hstep⟩ | ⟨why, hd, hstep⟩⟩
  · exact ⟨_, _, hstep, step_halt hr' (by rwa [hcell, hcfg, hpc]), h.halt⟩
  · obtain ⟨t, t', hx, hx', ht⟩ := exec_agreeAhead h.incrementPc hm hm' i
    have hstep' := step_of_decode_instr hr' (hcell.trans hw) (by rwa [hcfg]) (by rwa [hcfg])
    exact ⟨t, t', hstep.trans hx, hstep'.trans hx', ht⟩
  · refine ⟨_, _, hstep, step_of_decode_illegal hr' (hcell.trans hw) (by rwa [hcfg]) (by rwa [hcfg]), ?_⟩
    simp only [State.takeIllegal, State.incrementPc_cfg, hcfg]
    exact h.incrementPc.takeFault _

end AgreeAhead

/-- Settles O38, by induction on the length of the run: each step keeps both memories canonical and the states in
agreement ahead. -/
theorem passedCellsNeverMatter : Obligations.PassedCellsNeverMatter := by
  intro k
  induction k with
  | zero =>
    intro s s' t _ _ h hrun
    exact ⟨s', runsTo_zero.mpr rfl, runsTo_zero.mp hrun ▸ h⟩
  | succ k ih =>
    intro s s' t hm hm' h hrun
    obtain ⟨u, hu, hrest⟩ := runsTo_succ.mp hrun
    obtain ⟨v, u', hv, hu', hahead⟩ := step_agreeAhead h hm hm' (running_of_step hu)
    cases hv.symm.trans hu
    obtain ⟨t', hrest', ht⟩ := ih u u' t (step_mem_wf hu hm) (step_mem_wf hu' hm') hahead hrest
    exact ⟨t', runsTo_succ.mpr ⟨u', hu', hrest'⟩, ht⟩

end Sys2Proof.Machine
end

section
/-! SUPPORT. Proofs about the encoding: the fields of a word, the decoder and the encoder as inverses of each other, the
rows of 30_encoding.md R66, the illegal classes of R68, and the pseudo-instructions of R73. -/

namespace Sys2Proof

open Sys2Proof.Machine Sys2Proof.Table

/-! ### The decoder, one unit at a time (30_encoding.md R67) -/

theorem decodeFields_of_t_one {f : Fields} (ht : f.t = 1) : decodeFields f = decodeDataTransfer f := if_pos ht

theorem decodeFields_of_immediate {f : Fields} (ht : f.t = 0) (hi : f.i = 1) :
    decodeFields f = decodeAluImmediate f := by
  simp [decodeFields, ht, hi]

theorem decodeFields_of_register {f : Fields} (ht : f.t = 0) (hi : f.i = 0) :
    decodeFields f = decodeAluRegister f := by
  simp [decodeFields, ht, hi]

/-- The three kinds of field tuples, by the unit and form that decodes them. -/
theorem Fields.unit_cases (f : Fields) : f.t = 1 ∨ (f.t = 0 ∧ f.i = 1) ∨ (f.t = 0 ∧ f.i = 0) := by
  rcases BitVec.eq_zero_or_eq_one f.t with ht | ht
  · exact .inr ((BitVec.eq_zero_or_eq_one f.i).symm.imp (⟨ht, ·⟩) (⟨ht, ·⟩))
  · exact .inl ht

/-! ### Decoding and encoding are inverse (30_encoding.md R63, R66) -/

/-- The fields of a well-formed instruction are read as that instruction. -/
theorem decodeFields_fields {i : Instr} (hi : i ≠ .halt) (hw : i.wf = true) :
    decodeFields i.fields = .instr i := by
  cases i with
  | halt => exact absurd rfl hi
  | load iBit d addr op3 => rfl
  | store iBit r addr op3 => rfl
  | add d a b => exact if_pos hw
  | addi d imm b => rfl
  | sub d a b => exact if_pos hw
  | subi d imm b => rfl
  | and d a b => exact if_pos hw
  | andi d imm b => rfl
  | or d a b => exact if_pos hw
  | ori d imm b => rfl
  | xor d a b => exact if_pos hw
  | xori d imm b => rfl

/-- `i` is a well-formed instruction of one of the twelve rows, with the field tuple `f`. -/
abbrev ReadFrom (f : Fields) (i : Instr) : Prop := i ≠ .halt ∧ i.wf = true ∧ i.fields = f

/-! Each unit reads an instruction from its own fields: every branch that answers one fixes the opcode. -/

theorem readFrom_of_decodeDataTransfer {f : Fields} {i : Instr} (ht : f.t = 1)
    (h : decodeDataTransfer f = .instr i) : ReadFrom f i := by
  obtain ⟨t, o, iBit, a, b, d⟩ := f
  subst ht
  unfold decodeDataTransfer at h
  split at h <;> cases h <;> rename_i ho <;> cases ho <;> exact ⟨by simp, rfl, rfl⟩

theorem readFrom_of_decodeAluImmediate {f : Fields} {i : Instr} (ht : f.t = 0) (hi : f.i = 1)
    (h : decodeAluImmediate f = .instr i) : ReadFrom f i := by
  obtain ⟨t, o, iBit, a, b, d⟩ := f
  subst ht hi
  unfold decodeAluImmediate at h
  split at h <;> cases h <;> rename_i ho <;> cases ho <;> exact ⟨by simp, rfl, rfl⟩

theorem readFrom_of_decodeAluRegister {f : Fields} {i : Instr} (ht : f.t = 0) (hi : f.i = 0)
    (h : decodeAluRegister f = .instr i) : ReadFrom f i := by
  obtain ⟨t, o, iBit, a, b, d⟩ := f
  subst ht hi
  unfold decodeAluRegister at h
  split at h
  · rename_i hb
    split at h <;> cases h <;> rename_i ho <;> cases ho <;> exact ⟨by simp, hb, rfl⟩
  · cases h

/-- The decoder reads an instruction from exactly the instruction's own fields. -/
theorem decodeFields_eq_instr_iff {f : Fields} {i : Instr} : decodeFields f = .instr i ↔ ReadFrom f i := by
  constructor
  · intro h
    rcases f.unit_cases with ht | ⟨ht, hi⟩ | ⟨ht, hi⟩
    · exact readFrom_of_decodeDataTransfer ht (decodeFields_of_t_one ht ▸ h)
    · exact readFrom_of_decodeAluImmediate ht hi (decodeFields_of_immediate ht hi ▸ h)
    · exact readFrom_of_decodeAluRegister ht hi (decodeFields_of_register ht hi ▸ h)
  · rintro ⟨hi, hw, rfl⟩
    exact decodeFields_fields hi hw

theorem decode_eq_instr_iff {c : Config} {w : Word} (hne : w ≠ c.sentinel) {i : Instr} :
    decode c w = .instr i ↔ ReadFrom (fields w) i := by
  rw [decode_of_ne_sentinel hne, decodeFields_eq_instr_iff]

/-- Decoding an encoded instruction that is no sentinel by accident (30_encoding.md R69). -/
theorem decode_encode {c : Config} {i : Instr} (hw : i.wf = true) (hne : i ≠ .halt → encode c i ≠ c.sentinel) :
    decode c (encode c i) = .instr i := by
  by_cases hi : i = .halt
  · rw [hi, encode_halt, decode_sentinel]
  · rw [decode_eq_instr_iff (hne hi), encode_of_ne_halt c hi, fields_toWord]
    exact ⟨hi, hw, rfl⟩

/-- Opcode 0b1111 is no row's (30_encoding.md R66). -/
theorem Instr.fields_opcode_ne {i : Instr} (hi : i ≠ .halt) : i.fields.opcode ≠ 0b1111 := by
  cases i with
  | halt => exact absurd rfl hi
  | _ => simp [Instr.fields]

/-- The document's sentinel is no instruction's encoding (30_encoding.md R69): its opcode field is 0b1111. -/
theorem encode_document_ne_sentinel {i : Instr} (hi : i ≠ .halt) : encode Config.document i ≠ 0xFFFF#16 := by
  intro h
  have hop : i.fields.opcode = (fields 0xFFFF#16).opcode := by
    rw [← h, encode_of_ne_halt _ hi, fields_toWord]
  exact i.fields_opcode_ne hi hop

theorem decode_encode_document {i : Instr} (hw : i.wf = true) :
    decode Config.document (encode Config.document i) = .instr i :=
  decode_encode hw encode_document_ne_sentinel

/-- Settles O1, from the fields of an instruction being read as that instruction, and packing being injective. -/
theorem decodeOfEncodeIsTheInstruction : Obligations.DecodeOfEncodeIsTheInstruction :=
  ⟨fun _ _ => decode_encode, fun _ => encode_document_ne_sentinel⟩

/-- Settles O2: HALT is read from the sentinel alone, any other instruction from its own fields, which are the word's. -/
theorem encodeOfDecodeIsTheWord : Obligations.EncodeOfDecodeIsTheWord := by
  intro c w i h
  by_cases hne : w = c.sentinel
  · subst hne
    cases (decode_sentinel c).symm.trans h
    exact ⟨rfl, encode_halt c⟩
  · obtain ⟨hi, hw, hf⟩ := (decode_eq_instr_iff hne).mp h
    exact ⟨hw, by rw [encode_of_ne_halt c hi, hf, toWord_fields]⟩

/-! ### Masks and matches (30_encoding.md R66) -/

/-- The mask of a data-transfer row leaves `T` and the opcode. -/
theorem fields_and_F800 (w : Word) :
    fields (w &&& 0xF800) = ⟨(fields w).t, (fields w).opcode, 0, 0, 0, 0⟩ := by
  have hm : fields 0xF800 = ⟨BitVec.allOnes 1, BitVec.allOnes 4, 0, 0, 0, 0⟩ := rfl
  rw [fields_and, hm]
  simp only [BitVec.and_allOnes, BitVec.and_zero, BitVec.ofNat_eq_ofNat]

/-- The mask of an immediate form leaves `T`, the opcode and `I`. -/
theorem fields_and_FC00 (w : Word) :
    fields (w &&& 0xFC00) = ⟨(fields w).t, (fields w).opcode, (fields w).i, 0, 0, 0⟩ := by
  have hm : fields 0xFC00 = ⟨BitVec.allOnes 1, BitVec.allOnes 4, BitVec.allOnes 1, 0, 0, 0⟩ := rfl
  rw [fields_and, hm]
  simp only [BitVec.and_allOnes, BitVec.and_zero, BitVec.ofNat_eq_ofNat]

/-- The mask of a register form leaves also the top bit of `operand2`. -/
theorem fields_and_FC40 (w : Word) : fields (w &&& 0xFC40) =
    ⟨(fields w).t, (fields w).opcode, (fields w).i, 0, (fields w).operand2 &&& 0b1000, 0⟩ := by
  have hm : fields 0xFC40 = ⟨BitVec.allOnes 1, BitVec.allOnes 4, BitVec.allOnes 1, 0, 0b1000, 0⟩ := rfl
  rw [fields_and, hm]
  simp only [BitVec.and_allOnes, BitVec.and_zero, BitVec.ofNat_eq_ofNat]

/-- An `operand2` names a register exactly when its top bit is 0 (30_encoding.md R64). -/
theorem and_topBit_eq_zero_iff (a : Nibble) : a &&& 0b1000 = 0 ↔ registerInRange a = true := by
  revert a; decide

section Matches

variable {w pattern : Word} {o : BitVec 4}

theorem matches_dataTransfer_iff (hp : fields pattern = ⟨1, o, 0, 0, 0, 0⟩) :
    w &&& 0xF800 = pattern ↔ (fields w).t = 1 ∧ (fields w).opcode = o := by
  rw [matches_iff_fields, fields_and_F800, hp]
  simp

theorem matches_immediate_iff (hp : fields pattern = ⟨0, o, 1, 0, 0, 0⟩) :
    w &&& 0xFC00 = pattern ↔ (fields w).t = 0 ∧ (fields w).opcode = o ∧ (fields w).i = 1 := by
  rw [matches_iff_fields, fields_and_FC00, hp]
  simp

theorem matches_register_iff (hp : fields pattern = ⟨0, o, 0, 0, 0, 0⟩) :
    w &&& 0xFC40 = pattern ↔ (fields w).t = 0 ∧ (fields w).opcode = o ∧ (fields w).i = 0 ∧
      registerInRange (fields w).operand2 = true := by
  rw [matches_iff_fields, fields_and_FC40, hp, ← and_topBit_eq_zero_iff]
  simp

/-- A field tuple whose first three fields are known. -/
theorem Fields.eq_mk {f : Fields} {t : BitVec 1} {o : BitVec 4} {i : BitVec 1} (ht : f.t = t) (ho : f.opcode = o)
    (hi : f.i = i) : f = ⟨t, o, i, f.operand1, f.operand2, f.operand3⟩ := by
  subst ht ho hi
  rfl

/-- A row of the immediate forms decodes to the instruction with the word's fields. -/
theorem rowDecodes_immediate {mk : RegIdx → Nibble → RegIdx → Instr} (hp : fields pattern = ⟨0, o, 1, 0, 0, 0⟩)
    (hmk : ∀ d imm b, ReadFrom ⟨0, o, 1, d, imm, b⟩ (mk d imm b)) : RowDecodes 0xFC00 pattern mk := by
  intro c w hne hm
  obtain ⟨ht, ho, hi⟩ := (matches_immediate_iff hp).mp hm
  rw [decode_eq_instr_iff hne, Fields.eq_mk ht ho hi]
  exact hmk _ _ _

/-- A row of the register forms decodes to the instruction with the word's fields. -/
theorem rowDecodes_register {mk : RegIdx → Nibble → RegIdx → Instr} (hp : fields pattern = ⟨0, o, 0, 0, 0, 0⟩)
    (hmk : ∀ d a b, registerInRange a = true → ReadFrom ⟨0, o, 0, d, a, b⟩ (mk d a b)) :
    RowDecodes 0xFC40 pattern mk := by
  intro c w hne hm
  obtain ⟨ht, ho, hi, ha⟩ := (matches_register_iff hp).mp hm
  rw [decode_eq_instr_iff hne, Fields.eq_mk ht ho hi]
  exact hmk _ _ _ ha

end Matches

/-! One lemma per row: the instruction a matching word decodes to. -/

theorem matches_load_iff {w : Word} : w &&& 0xF800 = 0xA800 ↔ IsLoadWord w := matches_dataTransfer_iff rfl

theorem matches_store_iff {w : Word} : w &&& 0xF800 = 0xB000 ↔ IsStoreWord w := matches_dataTransfer_iff rfl

theorem rowDecodes_add : RowDecodes 0xFC40 0x0000 .add :=
  rowDecodes_register rfl fun _ _ _ ha => ⟨by simp, ha, rfl⟩

theorem rowDecodes_addi : RowDecodes 0xFC00 0x0400 .addi :=
  rowDecodes_immediate rfl fun _ _ _ => ⟨by simp, rfl, rfl⟩

theorem rowDecodes_sub : RowDecodes 0xFC40 0x0800 .sub :=
  rowDecodes_register rfl fun _ _ _ ha => ⟨by simp, ha, rfl⟩

theorem rowDecodes_subi : RowDecodes 0xFC00 0x0C00 .subi :=
  rowDecodes_immediate rfl fun _ _ _ => ⟨by simp, rfl, rfl⟩

theorem rowDecodes_and : RowDecodes 0xFC40 0x1000 .and :=
  rowDecodes_register rfl fun _ _ _ ha => ⟨by simp, ha, rfl⟩

theorem rowDecodes_andi : RowDecodes 0xFC00 0x1400 .andi :=
  rowDecodes_immediate rfl fun _ _ _ => ⟨by simp, rfl, rfl⟩

theorem rowDecodes_or : RowDecodes 0xFC40 0x1800 .or :=
  rowDecodes_register rfl fun _ _ _ ha => ⟨by simp, ha, rfl⟩

theorem rowDecodes_ori : RowDecodes 0xFC00 0x1C00 .ori :=
  rowDecodes_immediate rfl fun _ _ _ => ⟨by simp, rfl, rfl⟩

theorem rowDecodes_xor : RowDecodes 0xFC40 0x2000 .xor :=
  rowDecodes_register rfl fun _ _ _ ha => ⟨by simp, ha, rfl⟩

theorem rowDecodes_xori : RowDecodes 0xFC00 0x2400 .xori :=
  rowDecodes_immediate rfl fun _ _ _ => ⟨by simp, rfl, rfl⟩

/-- A word that matches a row of the table decodes to an instruction of that row. -/
theorem decode_of_matches {c : Config} {w : Word} (hne : w ≠ c.sentinel) {row : Word × Word} (hrow : row ∈ rows)
    (hm : w &&& row.1 = row.2) : ∃ i, decode c w = .instr i ∧ rowOf i = some row := by
  simp only [rows, List.mem_cons, List.not_mem_nil, or_false] at hrow
  rcases hrow with rfl | rfl | rfl | rfl | rfl | rfl | rfl | rfl | rfl | rfl | rfl | rfl
  · exact ⟨_, decode_of_isLoadWord hne (matches_load_iff.mp hm), rfl⟩
  · exact ⟨_, decode_of_isStoreWord hne (matches_store_iff.mp hm), rfl⟩
  · exact ⟨_, rowDecodes_add c w hne hm, rfl⟩
  · exact ⟨_, rowDecodes_addi c w hne hm, rfl⟩
  · exact ⟨_, rowDecodes_sub c w hne hm, rfl⟩
  · exact ⟨_, rowDecodes_subi c w hne hm, rfl⟩
  · exact ⟨_, rowDecodes_and c w hne hm, rfl⟩
  · exact ⟨_, rowDecodes_andi c w hne hm, rfl⟩
  · exact ⟨_, rowDecodes_or c w hne hm, rfl⟩
  · exact ⟨_, rowDecodes_ori c w hne hm, rfl⟩
  · exact ⟨_, rowDecodes_xor c w hne hm, rfl⟩
  · exact ⟨_, rowDecodes_xori c w hne hm, rfl⟩

/-- A word with the fields of a well-formed instruction matches the instruction's row. -/
theorem matches_of_readFrom {w : Word} {i : Instr} (h : ReadFrom (fields w) i) {row : Word × Word}
    (hrow : rowOf i = some row) : w &&& row.1 = row.2 := by
  obtain ⟨-, hw, hf⟩ := h
  cases i <;> cases hrow
  case load => exact (matches_dataTransfer_iff rfl).mpr (hf ▸ ⟨rfl, rfl⟩)
  case store => exact (matches_dataTransfer_iff rfl).mpr (hf ▸ ⟨rfl, rfl⟩)
  case add | sub | and | or | xor => exact (matches_register_iff rfl).mpr (hf ▸ ⟨rfl, rfl, rfl, hw⟩)
  case addi | subi | andi | ori | xori => exact (matches_immediate_iff rfl).mpr (hf ▸ ⟨rfl, rfl, rfl⟩)

/-- Settles O4: a matching word has its row's fields, and an instruction's own fields match its row. -/
theorem decoderFollowsTheOpcodeTable : Obligations.DecoderFollowsTheOpcodeTable := by
  refine ⟨decode_sentinel, fun c w hne row hrow => ⟨decode_of_matches hne hrow, ?_⟩⟩
  rintro ⟨i, hd, hi⟩
  exact matches_of_readFrom ((decode_eq_instr_iff hne).mp hd) hi

/-! ### The classes of illegal words (30_encoding.md R68) -/

theorem five_le_opcode_iff (o : BitVec 4) : 5 ≤ o.toNat ↔ o ≠ 0 ∧ o ≠ 1 ∧ o ≠ 2 ∧ o ≠ 3 ∧ o ≠ 4 := by
  revert o; decide

section Illegal

variable {f : Fields} {r : Illegal}

theorem decodeDataTransfer_eq_illegal_iff : decodeDataTransfer f = .illegal r ↔
    f.opcode ≠ 0b0101 ∧ f.opcode ≠ 0b0110 ∧ .dataTransferOpcode f.operand2 = r := by
  unfold decodeDataTransfer
  split <;> simp_all

theorem decodeAluImmediate_eq_illegal_iff :
    decodeAluImmediate f = .illegal r ↔ 5 ≤ f.opcode.toNat ∧ .aluOpcode = r := by
  rw [five_le_opcode_iff]
  unfold decodeAluImmediate
  split <;> simp_all

/-- The register index is checked first (spec decision D7). -/
theorem decodeAluRegister_eq_illegal_iff : decodeAluRegister f = .illegal r ↔
    8 ≤ f.operand2.toNat ∧ .registerIndex = r ∨
      5 ≤ f.opcode.toNat ∧ f.operand2.toNat < 8 ∧ .aluOpcode = r := by
  rw [five_le_opcode_iff]
  unfold decodeAluRegister registerInRange
  by_cases ha : f.operand2.toNat < 8
  · simp only [ha, decide_true, if_true, Nat.not_le.mpr ha, false_and, false_or, true_and]
    split <;> simp_all
  · simp [ha, Nat.le_of_not_lt ha]

/-- When a field tuple is illegal, and in which class: by the unit and form that decodes it. -/
theorem decodeFields_eq_illegal_iff : decodeFields f = .illegal r ↔
    f.t = 1 ∧ f.opcode ≠ 0b0101 ∧ f.opcode ≠ 0b0110 ∧ .dataTransferOpcode f.operand2 = r ∨
    f.t = 0 ∧ f.i = 0 ∧ 8 ≤ f.operand2.toNat ∧ .registerIndex = r ∨
    f.t = 0 ∧ 5 ≤ f.opcode.toNat ∧ (f.i = 1 ∨ f.operand2.toNat < 8) ∧ .aluOpcode = r := by
  rcases f.unit_cases with ht | ⟨ht, hi⟩ | ⟨ht, hi⟩
  · rw [decodeFields_of_t_one ht, decodeDataTransfer_eq_illegal_iff]
    simp [ht]
  · rw [decodeFields_of_immediate ht hi, decodeAluImmediate_eq_illegal_iff]
    simp [ht, hi]
  · rw [decodeFields_of_register ht hi, decodeAluRegister_eq_illegal_iff]
    simp [ht, hi]

end Illegal

/-- Settles O5: each class read off the one condition for all three. -/
theorem illegalWordsFallInTheirClass : Obligations.IllegalWordsFallInTheirClass := by
  intro c w hne
  rw [decode_of_ne_sentinel hne]
  refine ⟨?_, ?_, fun addr => ?_⟩ <;> rw [decodeFields_eq_illegal_iff] <;> simp

/-! ### The pseudo-instructions (30_encoding.md R73) -/

/-- A register form of the instruction set, packed: the `operand2` field holds the index of a register. -/
theorem toWord_register (o : BitVec 4) (d a b : RegIdx) :
    Fields.toWord ⟨0, o, 0, d, a.setWidth 4, b⟩ =
      BitVec.ofNat 16 (o.toNat * 2048 + d.toNat * 128 + a.toNat * 8 + b.toNat) := by
  have ha : (a.setWidth 4).toNat = a.toNat := BitVec.toNat_setWidth_of_le (by decide)
  simp [Fields.toWord, ha]

theorem registerInRange_setWidth (a : RegIdx) : registerInRange (a.setWidth 4) = true := by
  revert a; decide

/-- Writing back what a register holds changes nothing. -/
theorem setReg_reg_self (s : State) (r : RegIdx) : s.setReg r (s.reg r) = s := by
  simp [State.setReg, State.reg]

/-- The frame of a register write. -/
theorem onlyRegister_setReg (s : State) (d : RegIdx) (v : Word) : OnlyRegister s (s.setReg d v) d :=
  ⟨fun _ hq => State.reg_setReg_other s hq v, fun _ => rfl, rfl, rfl, rfl, rfl⟩

/-- A register form whose `operand2` is the index of a register reads that register. -/
theorem aluRegister_setWidth (f : Word → Word → Word) (d a b : RegIdx) (s : State) :
    aluRegister f d (a.setWidth 4) b s = .next (s.setReg d (f (s.reg a) (s.reg b))) := by
  have ha : ((a.setWidth 4).setWidth 3 : RegIdx) = a := by revert a; decide
  rw [aluRegister_of_lt f d b s (by simpa [registerInRange] using registerInRange_setWidth a), ha]

theorem exec_or_same (d r : RegIdx) (s : State) :
    exec (.or d (r.setWidth 4) r) s = .next (s.setReg d (s.reg r)) := by
  refine (aluRegister_setWidth aluOr d r r s).trans ?_
  simp [aluOr]

theorem exec_xor_same (d r : RegIdx) (s : State) :
    exec (.xor d (r.setWidth 4) r) s = .next (s.setReg d 0) := by
  refine (aluRegister_setWidth aluXor d r r s).trans ?_
  simp [aluXor]

/-- The MOV word decodes to OR of the source register with itself. -/
theorem decode_movWord (d r : RegIdx) :
    decode Config.document (BitVec.ofNat 16 (0x1800 + d.toNat * 128 + r.toNat * 8 + r.toNat)) =
      .instr (.or d (r.setWidth 4) r) := by
  have henc : encode Config.document (.or d (r.setWidth 4) r) = _ := toWord_register 0b0011 d r r
  exact henc ▸ decode_encode_document (i := .or d (r.setWidth 4) r) (registerInRange_setWidth r)

/-- The CLR word decodes to XOR of the register with itself. -/
theorem decode_clrWord (d : RegIdx) :
    decode Config.document (BitVec.ofNat 16 (0x2000 + d.toNat * 128 + d.toNat * 8 + d.toNat)) =
      .instr (.xor d (d.setWidth 4) d) := by
  have henc : encode Config.document (.xor d (d.setWidth 4) d) = _ := toWord_register 0b0100 d d d
  exact henc ▸ decode_encode_document (i := .xor d (d.setWidth 4) d) (registerInRange_setWidth d)

/-- Settles O34: HALT and the words by decoding encodings; NOP, MOV and CLR by OR and XOR of a register with itself. -/
theorem pseudoInstructions : Obligations.PseudoInstructions := by
  refine ⟨⟨decode_sentinel Config.document, fun _ => rfl⟩, ⟨decode_movWord 0 0, fun s => ?_⟩,
    fun d r => ⟨decode_movWord d r, fun s => ?_⟩, fun d => ⟨decode_clrWord d, fun s => ?_⟩⟩
  · exact (exec_or_same 0 0 s).trans (congrArg _ (setReg_reg_self s 0))
  · exact ⟨_, exec_or_same d r s, State.reg_setReg_same s d _, onlyRegister_setReg s d _, rfl⟩
  · exact ⟨_, exec_xor_same d d s, State.reg_setReg_same s d _, onlyRegister_setReg s d _, rfl⟩

/-! ### The layout (30_encoding.md R61, R63) -/

/-- A slice of a word is a quotient and a remainder. -/
theorem toNat_slice (w : Word) (start len : Nat) :
    (w.extractLsb' start len).toNat = w.toNat / 2 ^ start % 2 ^ len := by
  rw [BitVec.extractLsb'_toNat, Nat.shiftRight_eq_div_pow]

theorem fields_eq_iff (w : Word) (f : Fields) : fields w = f ↔ w = f.toWord :=
  ⟨fun h => h ▸ (toWord_fields w).symm, fun h => h ▸ fields_toWord f⟩

/-- Settles O3: each field is a slice (the top one has no remainder to take), and packing inverts extraction. -/
theorem fieldsFollowTheLayout : Obligations.FieldsFollowTheLayout := by
  intro w
  have htop : w.toNat / 2 ^ 15 % 2 ^ 1 = w.toNat / 32768 := by
    have := w.isLt
    omega
  refine ⟨(toNat_slice w 15 1).trans htop, toNat_slice w 11 4, toNat_slice w 10 1, toNat_slice w 7 3,
    toNat_slice w 3 4, (toNat_slice w 0 3).trans ?_, fields_eq_iff w⟩
  rw [pow_zero, Nat.div_one]
  rfl

end Sys2Proof
end

section
/-! SUPPORT. Proofs about data transfer: LOAD and STORE below and at or above the memory's capacity, and the undefined
opcodes of the load_store_unit (40_data_transfer.md R80 to R85). -/

namespace Sys2Proof

open Sys2Proof.Machine

/-! ### LOAD and STORE on either side of the bounds check (40_data_transfer.md R82) -/

/-- The frame of a fault, taken for the instruction before `pc` (60_exceptions.md R138). -/
theorem takesFault_takeFault (s : State) (kind : FaultKind) : TakesFault s (s.takeFault kind) kind (s.pc - 1) :=
  ⟨rfl, rfl, rfl, rfl, fun _ => rfl, fun _ => rfl⟩

section Bounds

variable (iBit : BitVec 1) (r : RegIdx) {addr : Nibble} (op3 : BitVec 3) {s : State}

theorem exec_load_of_lt (h : addr.toNat < s.cfg.memWords) :
    exec (.load iBit r addr op3) s = .next (s.setReg r (Memory.read s.cfg.sentinel s.mem addr.toNat)) := by
  rw [← toNat_effectiveAddress] at h ⊢
  exact loadCell_of_lt r h

theorem exec_load_of_le (h : s.cfg.memWords ≤ addr.toNat) :
    exec (.load iBit r addr op3) s = .next (s.takeFault .outOfBoundsAddress) := by
  rw [← toNat_effectiveAddress] at h
  exact loadCell_of_le r h

theorem exec_store_of_lt (h : addr.toNat < s.cfg.memWords) : exec (.store iBit r addr op3) s =
    .next { s with mem := Memory.write s.cfg.sentinel s.mem addr.toNat (s.reg r) } := by
  rw [← toNat_effectiveAddress] at h ⊢
  exact storeCell_of_lt r h

theorem exec_store_of_le (h : s.cfg.memWords ≤ addr.toNat) :
    exec (.store iBit r addr op3) s = .next (s.takeFault .outOfBoundsAddress) := by
  rw [← toNat_effectiveAddress] at h
  exact storeCell_of_le r h

end Bounds

/-- Settles O19: at or above the capacity each access takes the one fault; 16 words hold every 4-bit address. -/
theorem outOfBoundsAddressFault : Obligations.OutOfBoundsAddressFault := by
  refine ⟨fun s r addr h => ?_, fun s iBit r addr op3 h => ?_, fun s iBit r addr op3 h => ?_⟩
  · exact ⟨_, loadCell_of_le r h, storeCell_of_le r h, takesFault_takeFault s _, rfl⟩
  · exact ⟨_, exec_load_of_le iBit r op3 h, exec_store_of_le iBit r op3 h, takesFault_takeFault s _, rfl⟩
  · have ha : addr.toNat < s.cfg.memWords := Nat.lt_of_lt_of_le addr.isLt h
    exact ⟨_, _, exec_load_of_lt iBit r op3 ha, exec_store_of_lt iBit r op3 ha, rfl, rfl⟩

/-! ### The undefined opcodes (40_data_transfer.md R85) -/

/-- A word of the data-transfer unit with neither of its opcodes falls in the third class of 30_encoding.md R68. -/
theorem decode_of_undefined_dataTransfer {c : Config} {w : Word} (hne : w ≠ c.sentinel) (ht : (fields w).t = 1)
    (hload : (fields w).opcode ≠ 0b0101) (hstore : (fields w).opcode ≠ 0b0110) :
    decode c w = .illegal (.dataTransferOpcode (fields w).operand2) := by
  rw [decode_of_ne_sentinel hne, decodeFields_eq_illegal_iff]
  exact .inl ⟨ht, hload, hstore, rfl⟩

/-- Settles O18: the word is illegal in the class that keeps its address, whose fault the address chooses. -/
theorem invalidDataTransferOpcodeFault : Obligations.InvalidDataTransferOpcodeFault := by
  intro s w hr hw hne ht hload hstore
  have hd := decode_of_undefined_dataTransfer hne ht hload hstore
  exact ⟨_, step_of_decode_illegal hr hw hne hd, rfl, takesFault_takeFault_incrementPc s _⟩

/-! ### The transfers (40_data_transfer.md R83, R84) -/

/-- Settles O21: in bounds LOAD is a register write of the cell, and the row's words are the LOAD words. -/
theorem loadCopiesCellToRegister : Obligations.LoadCopiesCellToRegister := by
  refine ⟨fun s iBit d addr op3 ha => ?_, fun c w hne hm => decode_of_isLoadWord hne (matches_load_iff.mp hm)⟩
  refine ⟨_, exec_load_of_lt iBit d op3 ha, ?_, onlyRegister_setReg s d _, rfl⟩
  rw [State.reg_setReg_same, State.readCell_of_lt ha]

/-- Settles O22: in bounds STORE is a write of the cell, which reads back, and the row's words are the STORE words. -/
theorem storeCopiesRegisterToCell : Obligations.StoreCopiesRegisterToCell := by
  refine ⟨fun s iBit r addr op3 hm ha => ?_, fun c w hne hm => decode_of_isStoreWord hne (matches_store_iff.mp hm)⟩
  refine ⟨_, exec_store_of_lt iBit r op3 ha, ?_, rfl⟩
  rintro a rfl
  rw [toNat_effectiveAddress]
  exact ⟨rfl, (State.readCell_write hm ha _ _).trans (if_pos rfl), onlyCell_write hm ha _⟩

end Sys2Proof
end

section
/-! SUPPORT. Proofs about the alu: its two faults, the ten instructions' results, and a whole step over any of their
encodings (41_alu.md R90 to R106). -/

namespace Sys2Proof

open Sys2Proof.Machine

/-! ### The faults (41_alu.md R105, R106) -/

/-- A register form whose `operand2` names no register falls in the first class of 30_encoding.md R68, whatever its
opcode. -/
theorem decode_of_registerIndex_ge {c : Config} {w : Word} (hne : w ≠ c.sentinel) (ht : (fields w).t = 0)
    (hi : (fields w).i = 0) (ha : 8 ≤ (fields w).operand2.toNat) : decode c w = .illegal .registerIndex := by
  rw [decode_of_ne_sentinel hne, decodeFields_eq_illegal_iff]
  exact .inr (.inl ⟨ht, hi, ha, rfl⟩)

/-- An undefined opcode whose operand check passed falls in the second class of 30_encoding.md R68. -/
theorem decode_of_undefined_alu {c : Config} {w : Word} (hne : w ≠ c.sentinel) (ht : (fields w).t = 0)
    (ho : 5 ≤ (fields w).opcode.toNat) (ha : (fields w).i = 1 ∨ (fields w).operand2.toNat < 8) :
    decode c w = .illegal .aluOpcode := by
  rw [decode_of_ne_sentinel hne, decodeFields_eq_illegal_iff]
  exact .inr (.inr ⟨ht, ho, ha, rfl⟩)

/-- The five register forms share one range check. -/
theorem exec_registerForm_of_le {d : RegIdx} {a : Nibble} {b : RegIdx} (h : 8 ≤ a.toNat) (s : State) {i : Instr}
    (hi : i ∈ [Instr.add d a b, .sub d a b, .and d a b, .or d a b, .xor d a b]) :
    exec i s = .next (s.takeFault .registerIndexOutOfBounds) := by
  simp only [List.mem_cons, List.not_mem_nil, or_false] at hi
  rcases hi with rfl | rfl | rfl | rfl | rfl
  · exact aluRegister_of_le aluAdd d b s h
  · exact aluRegister_of_le aluSub d b s h
  · exact aluRegister_of_le aluAnd d b s h
  · exact aluRegister_of_le aluOr d b s h
  · exact aluRegister_of_le aluXor d b s h

/-- Settles O16: the step takes the fault of the word's class, `exec` that of the shared range check. -/
theorem registerIndexOutOfBoundsFault : Obligations.RegisterIndexOutOfBoundsFault := by
  refine ⟨fun s w hr hw hne ht hi ha => ?_, fun s d a b ha i hi => ?_⟩
  · have hd := decode_of_registerIndex_ge hne ht hi ha
    exact ⟨_, step_of_decode_illegal hr hw hne hd, takesFault_takeFault_incrementPc s _, rfl⟩
  · exact ⟨_, exec_registerForm_of_le ha s hi, takesFault_takeFault s _, rfl⟩

/-- Settles O17: the word is illegal in the class of undefined alu opcodes, whose fault the step takes. -/
theorem invalidAluOpcodeFault : Obligations.InvalidAluOpcodeFault := by
  intro s w hr hw hne ht ho ha
  have hd := decode_of_undefined_alu hne ht ho ha
  exact ⟨_, step_of_decode_illegal hr hw hne hd, takesFault_takeFault_incrementPc s _, rfl⟩

/-! ### A step over any ALU encoding (41_alu.md R92) -/

/-- A well-formed instruction of the alu writes to its destination what the opcode table of 41_alu.md R90 gives for the
two operands its fields name. -/
theorem exec_eq_aluFunction {i : Instr} (ht : i.fields.t = 0) (hw : i.wf = true) (s : State) :
    ∃ v, exec i s = .next (s.setReg i.fields.operand1 v) ∧
      aluFunction i.fields.opcode
        (if i.fields.i = 1 then immediateOperand i.fields.operand2 else s.reg (i.fields.operand2.setWidth 3))
        (s.reg i.fields.operand3) = some v := by
  cases i
  case halt | load | store => exact absurd ht (by simp [Instr.fields])
  case add | sub | and | or | xor => exact ⟨_, aluRegister_of_lt _ _ _ s (of_decide_eq_true hw), rfl⟩
  case addi | subi | andi | ori | xori => exact ⟨_, rfl, rfl⟩

/-- Settles O33: the word decodes to a well-formed instruction with the word's own fields. -/
theorem aluEncodingsWriteTheirResult : Obligations.AluEncodingsWriteTheirResult := by
  intro s w hr hw hne ht ho ha
  obtain ⟨i, hd, hwf, -⟩ := decode_of_isAluWord hne ⟨ht, ho, ha⟩
  obtain ⟨-, -, hf⟩ := (decode_eq_instr_iff hne).mp hd
  obtain ⟨v, hx, hv⟩ := exec_eq_aluFunction (hf ▸ ht) hwf s.incrementPc
  rw [hf] at hx hv
  refine ⟨_, (step_of_decode_instr hr hw hne hd).trans hx, ?_, onlyRegister_setReg_incrementPc s _ v, rfl⟩
  rw [State.reg_setReg_same, BitVec.ofNat_toNat, BitVec.ofNat_toNat]
  exact hv

/-! ### The five functions as arithmetic and bit by bit (41_alu.md R93 to R102) -/

theorem toNat_aluAdd (x y : Word) : (aluAdd x y).toNat = (x.toNat + y.toNat) % 65536 := BitVec.toNat_add x y

theorem toNat_aluSub (x y : Word) :
    (aluSub x y).toNat = if y.toNat ≤ x.toNat then x.toNat - y.toNat else x.toNat + 65536 - y.toNat := by
  have hx := x.isLt
  have hy := y.isLt
  rw [aluSub, BitVec.toNat_sub]
  split <;> omega

/-- The difference over the integers, where nothing is borrowed. -/
theorem toNat_aluSub_int (x y : Word) : ((aluSub x y).toNat : Int) = ((x.toNat : Int) - y.toNat) % 65536 := by
  have hx := x.isLt
  have hy := y.isLt
  rw [toNat_aluSub]
  split <;> omega

theorem getLsbD_aluAnd (x y : Word) (k : Nat) :
    (aluAnd x y).getLsbD k = true ↔ x.getLsbD k = true ∧ y.getLsbD k = true := by
  rw [aluAnd, BitVec.getLsbD_and, Bool.and_eq_true]

theorem getLsbD_aluOr (x y : Word) (k : Nat) :
    (aluOr x y).getLsbD k = true ↔ x.getLsbD k = true ∨ y.getLsbD k = true := by
  rw [aluOr, BitVec.getLsbD_or, Bool.or_eq_true]

theorem getLsbD_aluXor (x y : Word) (k : Nat) :
    (aluXor x y).getLsbD k = true ↔ x.getLsbD k ≠ y.getLsbD k := by
  rw [aluXor, BitVec.getLsbD_xor, bne_iff_ne]

/-- The zero-extended immediate has the bits of the field, and 0 above them (30_encoding.md R65). -/
theorem getLsbD_immediateOperand (imm : Nibble) (k : Nat) :
    (immediateOperand imm).getLsbD k = imm.getLsbD k := by
  rw [immediateOperand, zext16, BitVec.getLsbD_setWidth, Bool.and_eq_right_iff_imp, decide_eq_true_eq]
  intro h
  have := BitVec.lt_of_getLsbD h
  omega

theorem getLsbD_immediateOperand_of_le (imm : Nibble) {k : Nat} (h : 4 ≤ k) :
    (immediateOperand imm).getLsbD k = false := by
  rw [getLsbD_immediateOperand, BitVec.getLsbD_of_ge imm k h]

/-- The AND of an immediate is no larger than the immediate (41_alu.md R98). -/
theorem toNat_aluAnd_immediateOperand_le (imm : Nibble) (y : Word) : (aluAnd (immediateOperand imm) y).toNat ≤ 15 := by
  have himm := imm.isLt
  have hle : (immediateOperand imm).toNat &&& y.toNat ≤ (immediateOperand imm).toNat := Nat.and_le_left
  rw [toNat_immediateOperand] at hle
  rw [aluAnd, BitVec.toNat_and, toNat_immediateOperand]
  omega

theorem getLsbD_aluOr_immediateOperand_of_le (imm : Nibble) (y : Word) {k : Nat} (h : 4 ≤ k) :
    (aluOr (immediateOperand imm) y).getLsbD k = y.getLsbD k := by
  rw [aluOr, BitVec.getLsbD_or, getLsbD_immediateOperand_of_le imm h, Bool.false_or]

theorem getLsbD_aluXor_immediateOperand_of_le (imm : Nibble) (y : Word) {k : Nat} (h : 4 ≤ k) :
    (aluXor (immediateOperand imm) y).getLsbD k = y.getLsbD k := by
  rw [aluXor, BitVec.getLsbD_xor, getLsbD_immediateOperand_of_le imm h, Bool.false_xor]

/-! ### The ten instructions: each form writes its function's result, whose value is given above -/

/-- Settles O23, by the register form of addition. -/
theorem addRegisterForm : Obligations.AddRegisterForm := by
  refine ⟨fun s d a b ha => ⟨_, aluRegister_of_lt aluAdd d b s ha, ?_, onlyRegister_setReg s d _, rfl⟩, rowDecodes_add⟩
  rw [State.reg_setReg_same]
  exact toNat_aluAdd _ _

/-- Settles O24, by the immediate form of addition. -/
theorem addImmediateForm : Obligations.AddImmediateForm := by
  refine ⟨fun s d imm b => ⟨_, rfl, ?_, onlyRegister_setReg s d _, rfl⟩, rowDecodes_addi⟩
  rw [State.reg_setReg_same, toNat_aluAdd, toNat_immediateOperand]

/-- Settles O25, by the register form of subtraction. -/
theorem subRegisterForm : Obligations.SubRegisterForm := by
  refine ⟨fun s d a b ha => ⟨_, aluRegister_of_lt aluSub d b s ha, ?_, onlyRegister_setReg s d _, rfl⟩, rowDecodes_sub⟩
  rw [State.reg_setReg_same]
  exact toNat_aluSub _ _

/-- Settles O26, by the immediate form of subtraction: the immediate is the minuend. -/
theorem subImmediateForm : Obligations.SubImmediateForm := by
  refine ⟨fun s d imm b => ⟨_, rfl, ?_, onlyRegister_setReg s d _, rfl⟩, rowDecodes_subi⟩
  rw [State.reg_setReg_same, toNat_aluSub_int, toNat_immediateOperand]

/-- Settles O27, by the register form of AND. -/
theorem andRegisterForm : Obligations.AndRegisterForm := by
  refine ⟨fun s d a b ha => ⟨_, aluRegister_of_lt aluAnd d b s ha, ?_, onlyRegister_setReg s d _, rfl⟩, rowDecodes_and⟩
  rw [State.reg_setReg_same]
  exact fun k _ => getLsbD_aluAnd _ _ k

/-- Settles O28, by the immediate form of AND, whose result the immediate bounds. -/
theorem andImmediateForm : Obligations.AndImmediateForm := by
  refine ⟨fun s d imm b => ⟨_, rfl, ?_, ?_, onlyRegister_setReg s d _, rfl⟩, rowDecodes_andi⟩ <;>
    rw [State.reg_setReg_same]
  · intro k _
    rw [getLsbD_aluAnd, getLsbD_immediateOperand]
  · exact toNat_aluAnd_immediateOperand_le imm _

/-- Settles O29, by the register form of OR. -/
theorem orRegisterForm : Obligations.OrRegisterForm := by
  refine ⟨fun s d a b ha => ⟨_, aluRegister_of_lt aluOr d b s ha, ?_, onlyRegister_setReg s d _, rfl⟩, rowDecodes_or⟩
  rw [State.reg_setReg_same]
  exact fun k _ => getLsbD_aluOr _ _ k

/-- Settles O30, by the immediate form of OR, which keeps the bits above the immediate. -/
theorem orImmediateForm : Obligations.OrImmediateForm := by
  refine ⟨fun s d imm b => ⟨_, rfl, ?_, ?_, onlyRegister_setReg s d _, rfl⟩, rowDecodes_ori⟩ <;>
    rw [State.reg_setReg_same]
  · intro k _
    rw [getLsbD_aluOr, getLsbD_immediateOperand]
  · exact fun k hk => getLsbD_aluOr_immediateOperand_of_le imm _ hk

/-- Settles O31, by the register form of exclusive OR. -/
theorem xorRegisterForm : Obligations.XorRegisterForm := by
  refine ⟨fun s d a b ha => ⟨_, aluRegister_of_lt aluXor d b s ha, ?_, onlyRegister_setReg s d _, rfl⟩, rowDecodes_xor⟩
  rw [State.reg_setReg_same]
  exact fun k _ => getLsbD_aluXor _ _ k

/-- Settles O32, by the immediate form of exclusive OR, which keeps the bits above the immediate. -/
theorem xorImmediateForm : Obligations.XorImmediateForm := by
  refine ⟨fun s d imm b => ⟨_, rfl, ?_, ?_, onlyRegister_setReg s d _, rfl⟩, rowDecodes_xori⟩ <;>
    rw [State.reg_setReg_same]
  · intro k _
    rw [getLsbD_aluXor, getLsbD_immediateOperand]
  · exact fun k hk => getLsbD_aluXor_immediateOperand_of_le imm _ hk

end Sys2Proof
end

section
/-! SUPPORT. Proofs about the execution engine: which instruction a step runs, when it halts and when it faults, that it
is the step of the units' pseudocode, what it hands to the host, and that every run ends (42_execution_engine.md R111 to
R124). -/

namespace Sys2Proof

open Sys2Proof.Machine

/-! ### The decoded instruction and the halt (42_execution_engine.md R113 to R119) -/

/-- Settles O7: the step runs what the fetched word decodes to; the sentinel decodes to HALT, and the step there is the
halt. -/
theorem stepRunsTheDecodedInstruction : Obligations.StepRunsTheDecodedInstruction := by
  intro s w i hr hw hd
  refine ⟨fun hne => step_of_decode_instr hr hw hne hd, ?_⟩
  rintro rfl
  cases (decode_sentinel s.cfg).symm.trans hd
  exact ⟨rfl, step_halt hr (.inr hw)⟩

/-- Settles O8: the halt writes `run_state` alone, and of the effects a step can have only the halt, which carries its
condition, reaches HALTED. -/
theorem haltConditionAndEffect : Obligations.HaltConditionAndEffect := by
  refine ⟨fun s => ⟨s.halt, rfl, rfl, rfl, rfl, rfl, rfl, fun _ => rfl, fun _ => rfl⟩,
    fun s hr => ⟨step_halt hr, fun t hstep hhalted => ?_⟩⟩
  cases stepEffect_of_step hr hstep with
  | halt h => exact h
  | instr w i t hp hw hne hd hi hx he =>
    exact absurd hhalted (he.runState_ne_halted hi (by simp [hr]))
  | illegal w r hp hw hne hd => simp at hhalted

theorem step_halted {s : State} (h : s.runState = .halted) : step s = .fault .alreadyHalted := by
  simp [step, h]

theorem step_faulted {s : State} (h : s.runState = .faulted) : step s = .fault .alreadyFaulted := by
  simp [step, h]

/-- A run that begins with a stop is that stop, however long it was to be. -/
theorem run_succ_of_step_fault {s : State} {r : Fault} (h : step s = .fault r) (k : Nat) :
    Sys2Proof.core.run (k + 1) s = .fault r := by
  have hcore : Sys2Proof.core.step s = .fault r := h
  simp only [Host.Core.run, hcore]

/-- Settles O9: the first step of the run is the stop. -/
theorem terminalStatesTakeNoStep : Obligations.TerminalStatesTakeNoStep :=
  fun k _ _ => ⟨fun h => run_succ_of_step_fault (step_halted h) k, fun h => run_succ_of_step_fault (step_faulted h) k⟩

/-! ### When a step faults (42_execution_engine.md R124) -/

/-- The run state after a well-formed instruction is FAULTED exactly when the instruction is the load_store_unit's and
its address is out of bounds (40_data_transfer.md R82). -/
theorem exec_faulted_iff {i : Instr} {s t : State} (hi : i ≠ .halt) (hw : i.wf = true) (hr : s.runState = .running)
    (hx : exec i s = .next t) :
    t.runState = .faulted ↔ i.fields.t = 1 ∧ s.cfg.memWords ≤ i.fields.operand2.toNat := by
  cases i with
  | halt => exact absurd rfl hi
  | load iBit d addr op3 =>
    rcases Nat.lt_or_ge addr.toNat s.cfg.memWords with ha | ha
    · cases (exec_load_of_lt iBit d op3 ha).symm.trans hx
      simp [Instr.fields, hr, ha]
    · cases (exec_load_of_le iBit d op3 ha).symm.trans hx
      simp [Instr.fields, ha]
  | store iBit r addr op3 =>
    rcases Nat.lt_or_ge addr.toNat s.cfg.memWords with ha | ha
    · cases (exec_store_of_lt iBit r op3 ha).symm.trans hx
      simp [Instr.fields, hr, ha]
    · cases (exec_store_of_le iBit r op3 ha).symm.trans hx
      simp [Instr.fields, ha]
  | _ =>
    obtain ⟨v, hv, -⟩ := exec_eq_aluFunction rfl hw s
    cases hv.symm.trans hx
    simp [Instr.fields, hr]

/-- Settles O10, by the effect of the step: a halt has no faulting word, an illegal word always faults, and an instruction
faults by its fields, which are the word's. -/
theorem stepIsTotalWhileRunning : Obligations.StepIsTotalWhileRunning := by
  intro s hr
  obtain ⟨t, hstep, heff⟩ := step_stepEffect hr
  refine ⟨t, hstep, ?_⟩
  cases heff with
  | halt h =>
    have hno : ∀ w, s.readCell s.pc = some w → w = s.cfg.sentinel := by
      intro w hw
      rcases h with h | h
      · cases (State.readCell_of_le h).symm.trans hw
      · exact Option.some.inj (hw.symm.trans h)
    simpa using fun w hw hne => absurd (hno w hw) hne
  | instr w i t hp hw hne hd hi hx he =>
    obtain ⟨-, hwf, hf⟩ := (decode_eq_instr_iff hne).mp hd
    rw [exec_faulted_iff (s := s.incrementPc) hi hwf hr hx, hf]
    simp [hw, hne, hd]
  | illegal w r hp hw hne hd => simp [hw, hne, hd]

/-! ### The step by units (42_execution_engine.md R113; 40_data_transfer.md R80; 41_alu.md R90) -/

section Units

variable (s : State)

@[simp] theorem commitUnit_writeReg (idx : Nat) (r : RegIdx) (v : Word) :
    commitUnit s idx (.writeReg r v) = s.setReg r v := rfl

@[simp] theorem commitUnit_writeMem (idx a : Nat) (v : Word) :
    commitUnit s idx (.writeMem a v) = { s with mem := Memory.write s.cfg.sentinel s.mem a v } := rfl

@[simp] theorem commitUnit_raise (kind : FaultKind) : commitUnit s s.instrIndex (.raise kind) = s.takeFault kind := rfl

theorem dispatchUnit_of_t_one {f : Fields} (ht : f.t = 1) :
    dispatchUnit s f = loadStoreUnit s f.opcode f.operand1 (effectiveAddress f.operand2) := if_pos ht

theorem dispatchUnit_of_t_zero {f : Fields} (ht : f.t = 0) :
    dispatchUnit s f = aluUnit s f.opcode f.i f.operand1 f.operand2 f.operand3 :=
  if_neg (by simp [ht])

theorem loadCell_eq_commitUnit (d : RegIdx) (addr : Word) :
    loadCell d addr s = .next (commitUnit s s.instrIndex (loadStoreUnit s 0b0101 d addr)) := by
  rcases Nat.lt_or_ge addr.toNat s.cfg.memWords with ha | ha
  · simp [loadCell_of_lt d ha, loadStoreUnit, Nat.not_le.mpr ha]
  · simp [loadCell_of_le d ha, loadStoreUnit, ha]

theorem storeCell_eq_commitUnit (r : RegIdx) (addr : Word) :
    storeCell r addr s = .next (commitUnit s s.instrIndex (loadStoreUnit s 0b0110 r addr)) := by
  rcases Nat.lt_or_ge addr.toNat s.cfg.memWords with ha | ha
  · simp [storeCell_of_lt r ha, loadStoreUnit, Nat.not_le.mpr ha]
  · simp [storeCell_of_le r ha, loadStoreUnit, ha]

/-- Past its range check the alu writes what its opcode table gives (41_alu.md R90). -/
theorem aluUnit_of_aluFunction {o : BitVec 4} {iBit : BitVec 1} {d : RegIdx} {a : Nibble} {b : RegIdx} {v : Word}
    (hrange : ¬ (iBit = 0#1 ∧ 8 ≤ a.toNat))
    (hv : aluFunction o (if iBit = 1#1 then a.setWidth 16 else s.reg (a.setWidth 3)) (s.reg b) = some v) :
    aluUnit s o iBit d a b = .writeReg d v := by
  simp only [aluUnit, if_neg hrange, hv]

/-- The range check passes for a well-formed instruction of the alu: else its fields would be illegal (30_encoding.md
R68, first class). -/
theorem operand_in_range_of_wf {i : Instr} (hi : i ≠ .halt) (hw : i.wf = true) (ht : i.fields.t = 0) :
    ¬ (i.fields.i = 0 ∧ 8 ≤ i.fields.operand2.toNat) := by
  rintro ⟨hbit, ha⟩
  have hillegal := decodeFields_eq_illegal_iff.mpr (.inr (.inl ⟨ht, hbit, ha, rfl⟩))
  cases (decodeFields_fields hi hw).symm.trans hillegal

theorem exec_eq_commitUnit_of_t_zero {i : Instr} (hi : i ≠ .halt) (hw : i.wf = true) (ht : i.fields.t = 0) :
    exec i s = .next (commitUnit s s.instrIndex (dispatchUnit s i.fields)) := by
  obtain ⟨v, hx, hv⟩ := exec_eq_aluFunction ht hw s
  rw [hx, dispatchUnit_of_t_zero s ht, aluUnit_of_aluFunction s (operand_in_range_of_wf hi hw ht) hv,
    commitUnit_writeReg]

/-- A well-formed instruction does what the unit that its fields select does. -/
theorem exec_eq_commitUnit {i : Instr} (hi : i ≠ .halt) (hw : i.wf = true) :
    exec i s = .next (commitUnit s s.instrIndex (dispatchUnit s i.fields)) := by
  cases i with
  | halt => exact absurd rfl hi
  | load iBit d addr op3 => exact loadCell_eq_commitUnit s d (effectiveAddress addr)
  | store iBit r addr op3 => exact storeCell_eq_commitUnit s r (effectiveAddress addr)
  | _ => exact exec_eq_commitUnit_of_t_zero s hi hw rfl

/-- An undefined opcode is no row of the alu's table. -/
theorem aluFunction_of_five_le {o : BitVec 4} (ho : 5 ≤ o.toNat) (x y : Word) : aluFunction o x y = none := by
  obtain ⟨h0, h1, h2, h3, h4⟩ := (five_le_opcode_iff o).mp ho
  simp_all [aluFunction]

/-- The unit that an illegal word's fields select raises the fault of the word's class, in the order of the unit's own
checks (spec decisions D7, D8). -/
theorem dispatchUnit_of_illegal {f : Fields} {r : Illegal} (h : decodeFields f = .illegal r) :
    dispatchUnit s f = .raise (illegalFaultKind s.cfg r) := by
  rcases decodeFields_eq_illegal_iff.mp h with ⟨ht, hload, hstore, rfl⟩ | ⟨ht, hi, ha, rfl⟩ | ⟨ht, ho, ha, rfl⟩
  · rw [dispatchUnit_of_t_one s ht]
    simp only [loadStoreUnit, toNat_effectiveAddress, illegalFaultKind]
    split
    · rfl
    · exact (if_neg hload).trans (if_neg hstore)
  · rw [dispatchUnit_of_t_zero s ht]
    exact if_pos ⟨hi, ha⟩
  · have hrange : ¬ (f.i = 0#1 ∧ 8 ≤ f.operand2.toNat) := by
      rintro ⟨hi, hge⟩
      rcases ha with h1 | hlt
      · exact absurd (hi.symm.trans h1) (by decide)
      · omega
    rw [dispatchUnit_of_t_zero s ht]
    simp only [aluUnit, if_neg hrange, aluFunction_of_five_le ho, illegalFaultKind]

variable {s}

theorem datapathStep_halt (h : s.cfg.memWords ≤ s.pc ∨ s.readCell s.pc = some s.cfg.sentinel) :
    datapathStep s = s.halt := by
  unfold datapathStep
  split
  · rfl
  · next hp =>
    have hc := h.resolve_left hp
    rw [State.readCell_of_lt (Nat.lt_of_not_le hp)] at hc
    exact if_pos (Option.some.inj hc)

theorem datapathStep_word {w : Word} (hp : s.pc < s.cfg.memWords) (hw : s.readCell s.pc = some w)
    (hne : w ≠ s.cfg.sentinel) :
    datapathStep s = commitUnit s.incrementPc s.pc (dispatchUnit s.incrementPc (fields w)) := by
  cases (State.readCell_of_lt hp).symm.trans hw
  exact (if_neg (Nat.not_le.mpr hp)).trans (if_neg hne)

end Units

/-- Settles O14: the two halts are one state; a legal word's instruction, and an illegal word's fault, are what the unit
that the word's fields select answers. -/
theorem stepAgreesWithTheUnits : Obligations.StepAgreesWithTheUnits := by
  intro s hr
  rcases step_cases hr with ⟨hstep, hend⟩ | ⟨w, hp, hw, hne, ⟨i, hd, hstep⟩ | ⟨r, hd, hstep⟩⟩
  · rw [hstep, datapathStep_halt hend]
  · obtain ⟨hi, hwf, hf⟩ := (decode_eq_instr_iff hne).mp hd
    rw [hstep, datapathStep_word hp hw hne, exec_eq_commitUnit _ hi hwf, hf]
    rfl
  · rw [hstep, datapathStep_word hp hw hne, dispatchUnit_of_illegal _ (decode_of_ne_sentinel hne ▸ hd)]
    rfl

/-! ### What the host gets (42_execution_engine.md R117, R122; 60_exceptions.md R139) -/

theorem report_of_halted {s : State} (h : s.runState = .halted) :
    s.report = some [(0, s.reg 0), (1, s.reg 1), (2, s.reg 2), (3, s.reg 3), (4, s.reg 4), (5, s.reg 5),
      (6, s.reg 6), (7, s.reg 7)] := if_pos h

theorem report_of_ne_halted {s : State} (h : s.runState ≠ .halted) : s.report = none := if_neg h

theorem diagnostic_of_faulted {s : State} (h : s.runState = .faulted) :
    s.diagnostic = some (s.faultKind, s.faultIndex) := if_pos h

theorem diagnostic_of_ne_faulted {s : State} (h : s.runState ≠ .faulted) : s.diagnostic = none := if_neg h

/-- Every register is 0 at the start of a run (10_state.md R34). -/
theorem reg_startWith (c : Config) (init : Nat → Word) (r : RegIdx) : (State.startWith c init).reg r = 0 :=
  State.reg_coreReset _ r

/-- The first fetch of a run reads the image's cell 0 (70_reset_and_hazards.md R152). -/
theorem readCell_pc_startWith {c : Config} (hc : c.legal = true) (init : Nat → Word) :
    (State.startWith c init).readCell (State.startWith c init).pc = some (init 0) := by
  have hpos : 0 < c.memWords := by
    simp only [Config.legal, Bool.and_eq_true, decide_eq_true_eq] at hc
    exact hc.1
  rw [State.startWith_pc, State.readCell_of_lt hpos, State.startWith_mem, State.startWith_cfg,
    Memory.read_ofImage c.sentinel c.memWords init hpos]

/-- Settles O43: the first fetch reads the sentinel, so the step is the halt, which keeps the start's registers. -/
theorem zeroInstructionRunReportsZeros : Obligations.ZeroInstructionRunReportsZeros := by
  intro c init hc hinit
  have hcell : (State.startWith c init).readCell (State.startWith c init).pc = some c.sentinel :=
    hinit ▸ readCell_pc_startWith hc init
  refine ⟨_, step_halt rfl (.inr hcell), rfl, ?_, diagnostic_of_ne_faulted (by simp)⟩
  simp only [report_of_halted (State.halt_runState _), State.reg_halt, reg_startWith]

/-- How a step ends: in the halt, RUNNING, or in a fault taken for the word it fetched. -/
theorem step_outcomes {s t : State} (hr : s.runState = .running) (hstep : step s = .next t) :
    t = s.halt ∨ t.runState = .running ∨ ∃ kind, kind ≠ .none ∧ t = s.incrementPc.takeFault kind := by
  cases stepEffect_of_step hr hstep with
  | halt h => exact .inl rfl
  | instr w i t hp hw hne hd hi hx he =>
    cases he with
    | halt h => exact absurd h hi
    | writeReg r v => exact .inr (.inl hr)
    | writeMem iBit r addr op3 hi ha => exact .inr (.inl hr)
    | fault kind hk hf => exact .inr (.inr ⟨kind, hk, rfl⟩)
  | illegal w r hp hw hne hd => exact .inr (.inr ⟨_, illegalFaultKind_ne_none _ r, rfl⟩)

/-- Settles O44, by how the step ends: only the halt is HALTED, and it keeps the registers; only a fault is FAULTED, and it
records the kind and the index of the fetched word. -/
theorem outputsFollowTheRunState : Obligations.OutputsFollowTheRunState := by
  intro s t hr hstep
  rcases step_outcomes hr hstep with rfl | hrun | ⟨kind, hk, rfl⟩
  · exact ⟨report_of_halted rfl, diagnostic_of_ne_faulted, by simp⟩
  · exact ⟨by simp [hrun, report_of_ne_halted], diagnostic_of_ne_faulted, by simp [hrun]⟩
  · exact ⟨report_of_ne_halted (by simp), diagnostic_of_ne_faulted, fun hf => ⟨kind, hk, diagnostic_of_faulted hf⟩⟩

/-! ### Every run ends (42_execution_engine.md R121) -/

/-- The bound as fuel: `n` steps that would carry `pc` past the end of memory are enough, since each step that leaves the
machine RUNNING moves `pc` by one, inside memory. -/
theorem exists_end_of_memWords_lt (n : Nat) {s : State} (hr : s.runState = .running) (hp : s.pc ≤ s.cfg.memWords)
    (hn : s.cfg.memWords < s.pc + n) : ∃ k t, k ≤ n ∧ RunsTo k s t ∧ t.runState ≠ .running := by
  induction n generalizing s with
  | zero => omega
  | succ n ih =>
    obtain ⟨u, hu, heff⟩ := step_stepEffect hr
    by_cases hur : u.runState = .running
    · rcases pcMovesByOneOrTheMachineHalts s u hr hu with ⟨hhalted, -⟩ | ⟨-, hpc, hlt⟩
      · cases hur.symm.trans hhalted
      · have hcfg : u.cfg.memWords = s.cfg.memWords := by rw [heff.cfg_eq]
        obtain ⟨k, t, hk, hrun, ht⟩ := ih hur (by omega) (by omega)
        exact ⟨k + 1, t, by omega, runsTo_succ.mpr ⟨u, hu, hrun⟩, ht⟩
    · exact ⟨1, u, by omega, runsTo_succ.mpr ⟨u, hu, runsTo_zero.mpr rfl⟩, hur⟩

/-- Settles O45, with one step for each cell from `pc` up and one for the halt. -/
theorem everyRunEnds : Obligations.EveryRunEnds :=
  fun _ hr hp => exists_end_of_memWords_lt _ hr hp (by omega)

end Sys2Proof
end

section
/-! SUPPORT. Proofs about the exceptions: the fault of an illegal word, that legal words fault only in a memory of fewer
than 16 words, and that a STORE-free program of legal words ends in HALTED (60_exceptions.md R134, R138). -/

namespace Sys2Proof.Machine

/-! ### Illegal words (60_exceptions.md R138) -/

/-- The sentinel is a row of the table, so no illegal word is the sentinel. -/
theorem ne_sentinel_of_decode_illegal {c : Config} {w : Word} {r : Illegal} (h : decode c w = .illegal r) :
    w ≠ c.sentinel := by
  rintro rfl
  cases (decode_sentinel c).symm.trans h

/-- Settles O15: the step is the illegal word's fault after the increment of `pc`. -/
theorem illegalWordTakesItsFault : Obligations.IllegalWordTakesItsFault := by
  intro s w r hr hw hd
  exact ⟨_, step_of_decode_illegal hr hw (ne_sentinel_of_decode_illegal hd) hd,
    takesFault_takeFault_incrementPc s _, rfl⟩

/-! ### Legal words (60_exceptions.md R134) -/

/-- A well-formed instruction takes no fault from 16 words of memory up. -/
theorem Effect.runState_ne_faulted {i : Instr} {s t : State} (h : Effect i s t) (hwf : i.wf = true)
    (h16 : 16 ≤ s.cfg.memWords) (hr : s.runState ≠ .faulted) : t.runState ≠ .faulted := by
  cases h with
  | halt hi => simp
  | writeReg r v => exact hr
  | writeMem iBit r addr op3 hi ha => exact hr
  | fault kind hk hf =>
    rcases hf with hf | hf
    · exact absurd (hwf.symm.trans hf) (by decide)
    · omega

/-- Settles O20, by the effect of the step: decoded instructions are well-formed, and these fault only in a smaller
memory. -/
theorem legalWordsNeverFault : Obligations.LegalWordsNeverFault := by
  intro s t w i hr h16 hw hd hstep
  cases stepEffect_of_step hr hstep with
  | halt h => simp
  | instr w' i' t hp hw' hne hd' hi hx he =>
    obtain ⟨hwf, -⟩ := encodeOfDecodeIsTheWord s.cfg w' i' hd'
    exact he.runState_ne_faulted hwf h16 (by simp [hr])
  | illegal w' r hp hw' hne hd' =>
    cases hw.symm.trans hw'
    cases hd.symm.trans hd'

/-! ### Programs without STORE (60_exceptions.md R134; 42_execution_engine.md R116, R121) -/

/-- Only a STORE changes a memory cell (10_state.md R33). -/
theorem Effect.readCell_of_ne_store {i : Instr} {s t : State} (h : Effect i s t)
    (hi : ∀ iBit r addr op3, i ≠ .store iBit r addr op3) (a : Nat) : t.readCell a = s.readCell a := by
  cases h with
  | halt h => rfl
  | writeReg r v => rfl
  | writeMem iBit r addr op3 h ha => exact absurd h (hi iBit r addr op3)
  | fault kind hk hf => rfl

/-- Every cell from `pc` up holds a legal word or the sentinel, and none a STORE. -/
def State.StoreFreeAhead (s : State) : Prop :=
  ∀ a w, s.pc ≤ a → s.readCell a = some w →
    ∃ i, decode s.cfg w = .instr i ∧ ∀ iBit r addr op3, i ≠ .store iBit r addr op3

/-- A program ahead stays one where `pc` moves up and the cells and parameters stay. -/
theorem State.StoreFreeAhead.of_sameMemory {s t : State} (h : s.StoreFreeAhead) (hpc : s.pc ≤ t.pc)
    (hcfg : t.cfg = s.cfg) (hmem : SameMemory s t) : t.StoreFreeAhead := by
  intro a w ha hw
  rw [hcfg]
  exact h a w (hpc.trans ha) ((hmem a).symm.trans hw)

/-- What a run of a STORE-free legal program keeps: 16 words of memory or more, the program ahead, and no fault. -/
def State.RunsStoreFree (s : State) : Prop :=
  16 ≤ s.cfg.memWords ∧ s.StoreFreeAhead ∧ s.runState ≠ .faulted

/-- Without STORE the program ahead stays, so the word of the next fetch is legal again and cannot fault. -/
theorem State.RunsStoreFree.step {s t : State} (h : s.RunsStoreFree) (hstep : step s = .next t) :
    t.RunsStoreFree := by
  obtain ⟨h16, hahead, -⟩ := h
  have hr := running_of_step hstep
  cases stepEffect_of_step hr hstep with
  | halt h => exact ⟨h16, hahead, by simp⟩
  | instr w i t hp hw hne hd hi hx he =>
    have hcfg : t.cfg = s.cfg := he.cfg_eq
    have hpc : t.pc = s.pc + 1 := he.pc_eq
    obtain ⟨j, hj, hstore⟩ := hahead s.pc w le_rfl hw
    cases hj.symm.trans hd
    exact ⟨hcfg ▸ h16, hahead.of_sameMemory (by omega) hcfg (he.readCell_of_ne_store hstore),
      legalWordsNeverFault s t w i hr h16 hw hd hstep⟩
  | illegal w r hp hw hne hd =>
    obtain ⟨j, hj, -⟩ := hahead s.pc w le_rfl hw
    cases hj.symm.trans hd

/-- Settles O46: the run ends within the bound, and it does not end in FAULTED. -/
theorem storeFreeLegalProgramsHalt : Obligations.StoreFreeLegalProgramsHalt := by
  intro s hr hp h16 hahead
  obtain ⟨k, t, hk, hrun, hend⟩ := everyRunEnds s hr hp
  obtain ⟨-, -, hfault⟩ :=
    runsTo_keeps (P := State.RunsStoreFree) (fun _ _ => State.RunsStoreFree.step) ⟨h16, hahead, by simp [hr]⟩ hrun
  refine ⟨k, t, hk, hrun, ?_⟩
  cases ht : t.runState with
  | running => exact absurd ht hend
  | halted => rfl
  | faulted => exact absurd ht hfault

end Sys2Proof.Machine
end

section
/-! SUPPORT. Proofs about reset and the host's load: what reset leaves of any state, that the reset state is a start on an
image of sentinels, and that the step after the host placed a word runs it (70_reset_and_hazards.md R150 to R153). -/

namespace Sys2Proof.Machine

/-! ### Reset and an image of sentinels (70_reset_and_hazards.md R150 to R152) -/

/-- An image that holds the fill everywhere lists no cell: it reads like the empty memory, and canonical memories that
read alike are equal. -/
theorem Memory.ofImage_fill (fill : Word) (cap : Nat) : Memory.ofImage fill cap (fun _ => fill) = [] :=
  equalCellsAreEqualMemories fill cap _ _ (Memory.ofImage_wf fill cap _) (Memory.wf_nil fill cap)
    fun _ ha => Memory.read_ofImage fill cap _ ha

/-- A start on an image of sentinels is the reset state at the run's parameters. -/
theorem State.startWith_sentinel (c : Config) :
    State.startWith c (fun _ => c.sentinel) = { State.reset with cfg := c } :=
  congrArg (fun m => { State.reset with mem := m, cfg := c }) (Memory.ofImage_fill c.sentinel c.memWords)

/-- Settles O42: reset writes each field but memory and the parameters, from any state; and the reset state is the start
on an image of the document's sentinel. -/
theorem resetSetsTheCoreAndKeepsMemory : Obligations.ResetSetsTheCoreAndKeepsMemory :=
  ⟨fun s => ⟨State.reg_coreReset s, State.coreReset_pc s, State.coreReset_runState s, State.coreReset_faultKind s,
    State.coreReset_faultIndex s, State.coreReset_cfg s, State.readCell_coreReset s⟩,
    (State.startWith_sentinel Config.document).symm⟩

/-! ### The state that fetches (60_exceptions.md R141) -/

theorem memWords_pos_of_legal {c : Config} (hc : c.legal = true) : 0 < c.memWords := by
  simp only [Config.legal, Bool.and_eq_true, decide_eq_true_eq] at hc
  exact hc.1

/-- The state that fetches is the state itself, where it fetches already, or what reset leaves of it. -/
theorem State.readyToFetch_cases (s : State) :
    (s.readyToFetch = s ∧ s.runState = .running ∧ s.pc < s.cfg.memWords) ∨ s.readyToFetch = s.coreReset := by
  unfold State.readyToFetch
  split
  · next h => exact .inl ⟨rfl, h⟩
  · exact .inr rfl

@[simp] theorem State.readyToFetch_mem (s : State) : s.readyToFetch.mem = s.mem := by
  rcases s.readyToFetch_cases with ⟨h, -⟩ | h <;> rw [h]
  exact s.coreReset_mem

@[simp] theorem State.readyToFetch_cfg (s : State) : s.readyToFetch.cfg = s.cfg := by
  rcases s.readyToFetch_cases with ⟨h, -⟩ | h <;> rw [h]
  exact s.coreReset_cfg

@[simp] theorem State.readyToFetch_runState (s : State) : s.readyToFetch.runState = .running := by
  rcases s.readyToFetch_cases with ⟨h, hr, -⟩ | h <;> rw [h]
  · exact hr
  · exact s.coreReset_runState

/-- With legal parameters address 0, where reset leaves `pc`, is inside memory. -/
theorem State.readyToFetch_pc_lt {s : State} (hc : s.cfg.legal = true) :
    s.readyToFetch.pc < s.cfg.memWords := by
  rcases s.readyToFetch_cases with ⟨h, -, hp⟩ | h <;> rw [h]
  · exact hp
  · exact memWords_pos_of_legal hc

/-! ### The placed word (70_reset_and_hazards.md R152, R153) -/

@[simp] theorem State.placeAtFetch_cfg (s : State) (w : Word) : (s.placeAtFetch w).cfg = s.cfg := s.readyToFetch_cfg

@[simp] theorem State.placeAtFetch_runState (s : State) (w : Word) : (s.placeAtFetch w).runState = .running :=
  s.readyToFetch_runState

/-- The next fetch reads the placed word. -/
theorem State.readCell_pc_placeAtFetch {s : State} (hc : s.cfg.legal = true)
    (hm : Memory.wf s.cfg.sentinel s.cfg.memWords s.mem) (w : Word) :
    (s.placeAtFetch w).readCell (s.placeAtFetch w).pc = some w := by
  have hwrite := State.readCell_write (s := s.readyToFetch) (by simpa using hm)
    (by simpa using State.readyToFetch_pc_lt hc) w s.readyToFetch.pc
  simpa [State.placeAtFetch] using hwrite

/-- A word of 16 bits is placed whole. -/
theorem State.withFetchWord_of_lt (s : State) {w : Nat} (hw : w < 65536) :
    s.withFetchWord 16 w = s.placeAtFetch (BitVec.ofNat 16 w) :=
  congrArg (fun v => s.placeAtFetch (BitVec.ofNat 16 v)) (Nat.mod_eq_of_lt hw)

/-- HALT is read from the sentinel alone (30_encoding.md R69; log 14). -/
theorem eq_sentinel_iff_of_decode {c : Config} {w : Word} {i : Instr} (hd : decode c w = .instr i) :
    w = c.sentinel ↔ i = .halt := by
  constructor
  · rintro rfl
    cases (decode_sentinel c).symm.trans hd
    rfl
  · rintro rfl
    by_contra hne
    exact decode_ne_halt hne hd

/-- Settles O47: the next fetch reads the placed word, and the step runs what the fetched word decodes to. -/
theorem placedWordRunsNext : Obligations.PlacedWordRunsNext := by
  intro s w i hc hm hw hd
  rw [s.withFetchWord_of_lt hw]
  have hcell := State.readCell_pc_placeAtFetch hc hm (BitVec.ofNat 16 w)
  rw [← s.placeAtFetch_cfg (BitVec.ofNat 16 w)] at hd
  obtain ⟨hinstr, hhalt⟩ := stepRunsTheDecodedInstruction _ _ i (s.placeAtFetch_runState _) hcell hd
  have hsentinel := eq_sentinel_iff_of_decode hd
  exact ⟨fun hi => hinstr (mt hsentinel.mp hi), fun hi => (hhalt (hsentinel.mpr hi)).2⟩

end Sys2Proof.Machine
end

section
/-! SUPPORT. Proofs about the words the spec writes out (95_test_vectors.md Part 1 and Part 2): a legal one is the encoding
of its instruction, an illegal one meets the condition of its class. -/

namespace Sys2Proof

/-- At the document's parameters a word that encodes a well-formed instruction decodes to it. -/
theorem decode_document_of_encode_eq {i : Instr} {w : Word} (hw : i.wf = true)
    (he : encode Config.document i = w) : decode Config.document w = .instr i :=
  he ▸ decode_encode_document hw

/-- Settles O6: the eight legal words are encodings, HALT's included (log 14); each illegal word has the fields of its
class. -/
theorem specExampleWordsDecode : Obligations.SpecExampleWordsDecode := by
  obtain ⟨hindex, -, -⟩ := illegalWordsFallInTheirClass Config.document 0x0141 (by decide)
  obtain ⟨-, hopcode, -⟩ := illegalWordsFallInTheirClass Config.document 0x3909 (by decide)
  obtain ⟨-, -, hdata⟩ := illegalWordsFallInTheirClass Config.document 0x8141 (by decide)
  refine ⟨?_, ?_, ?_, ?_, ?_, ?_, ?_, ?_, hindex.mpr (by decide), hopcode.mpr (by decide), (hdata 8).mpr (by decide)⟩
  all_goals exact decode_document_of_encode_eq rfl rfl

end Sys2Proof
end
